-- ==== Sys2Proof/Word.lean ====
section
/-! DEFINITION. The word types of CSCORE and the constants that size them (spec/00_scope.md rule R7). Every quantity in
CSCORE is unsigned (R11), so each is a `BitVec` read as a natural number. -/

namespace Sys2Proof

/-- A byte of a block, a key or a message (R10). -/
abbrev Byte := BitVec 8

/-- A 32-bit register or bus word (R7: BUS_WIDTH). -/
abbrev Word := BitVec 32

/-- A 64-bit block, key or IV, held as a register pair X0 ‖ X1 and read as the big-endian integer of its 8 bytes (R46). -/
abbrev Block := BitVec 64

/-- A 32-bit half-block (R7: HALF_BITS). -/
abbrev Half := BitVec 32

/-- A 48-bit round key (R7: SUBKEY_BITS). -/
abbrev Subkey := BitVec 48

/-- A 28-bit half of the key schedule's state (R7: KS_HALF_BITS). -/
abbrev KsHalf := BitVec 28

/-- NB, the width of every big-number register in bits (R7). -/
abbrev nb : Nat := 2048

/-- A big-number register: an unsigned integer in [0, 2^NB) (R12). -/
abbrev Big := BitVec 2048

/-- A word offset of the register window: byte offset 4·n for n < 1024. The bus is word-only, so a byte offset with bits
[1:0] ≠ 0 or beyond 0xFFC cannot be written down (R42, R49). -/
abbrev WordOff := Fin 1024

/-- ROUNDS (R7). -/
abbrev rounds : Nat := 16

end Sys2Proof
end

