-- ==== Sys2Proof/Config.lean ====
section
/-! DEFINITION. What an implementation of CSCORE fixes, and the free values of the model (spec/00_scope.md rules R7 and
R8). A constant without a body is OPEN: nothing can be proved of its value. -/

namespace Sys2Proof

/-- ID_VALUE (R7, R19). -/
def Config.idValue : Word := 0x43530007

/-- G_DEFAULT (R7). -/
def Config.gDefault : Big := 2

/-- The bits of P_DEFAULT that the spec leaves OPEN (R7, D46). -/
opaque Config.pDefaultBits : Big

/-- P_DEFAULT (R7, D46): OPEN but for its size, 2^2047 ≤ P_DEFAULT < 2^2048. That it is a safe prime is no part of this
constant: `Config.PDefaultIsSafePrime` says it, for a claim that needs it. DESIGN CHOICE, safe (log entry 4). -/
def Config.pDefault : Big :=
  Config.pDefaultBits ||| BitVec.twoPow 2048 2047

/-- The property the source gives the default prime (R7, D46): it and (P_DEFAULT − 1)/2 are primes. -/
def Config.PDefaultIsSafePrime : Prop :=
  Nat.Prime Config.pDefault.toNat ∧ Nat.Prime ((Config.pDefault.toNat - 1) / 2)

/-- A digest of H_DH: at least 8 bytes (R7, R126). -/
structure Digest where
  /-- the first 8 bytes of the digest -/
  lead : Vector Byte 8
  /-- the bytes after them, as many as the hash has -/
  rest : List Byte
  deriving DecidableEq, Repr, Inhabited

/-- The digest as a byte sequence. -/
def Digest.bytes (d : Digest) : List Byte :=
  d.lead.toList ++ d.rest

/-- ENC_S (R7, R126): OPEN. The canonical encoding of the shared secret, a function of S alone. -/
opaque Config.encS : Nat → List Byte

/-- H_DH (R7, R126): OPEN. The hash of the key derivation; its digest has at least 8 bytes. -/
opaque Config.hDh : List Byte → Digest

/-- The value of `modexp(b, e, 0)`, which R121 does not define: any natural number, by the operands b and e. Only a state
that no run reaches asks for it. DESIGN CHOICE (log entry 13). -/
opaque Config.modexpByZero : Nat → Nat → Nat

/-- The draws a core step may take (R8): free inputs of the step, under no law. A command takes the one its rule names. -/
structure Draw where
  /-- `draw_bits(64)` of CBC_ENC_INIT: the IV (R112) -/
  iv : Block
  /-- the choice behind `draw_range(2, p − 2)` of DH_INIT (R124): any natural number, brought into the range there -/
  exponent : Nat
  deriving DecidableEq, Repr, Inhabited

/-- The free input of a command executed in the reset state: any value. DESIGN CHOICE (log entry 1). -/
opaque Config.resetDraw : Draw

/-- The free input of the core step that comes when nothing is scheduled, in the reset state: any value. DESIGN CHOICE (log
entry 1). -/
opaque Config.resetLastDraw : Draw

end Sys2Proof
end

