-- ==== Sys2Proof/Syntax.lean ====
section
/-! DEFINITION. The commands of CSCORE: one constructor for each row of spec/opcode_table.json (spec/30_encoding.md rules
R60, R61, R63). A command's only operand is the 4-bit field ARG, kept as the bits of the word; a command whose ARG is
unused has none (its ARG must be 0). -/

namespace Sys2Proof

/-- A command. The argument of a constructor is the field ARG as R61 names it. -/
inductive Instr where
  /-- NOP, OP 0x00 (R131) -/
  | nop
  /-- KEY_LOAD, OP 0x01 (R93): `klen` is KLEN, the count of valid key bytes in KEY -/
  | keyLoad (klen : BitVec 4)
  /-- KEY_FROM_DH, OP 0x02 (R94) -/
  | keyFromDh
  /-- SUBKEY_READ, OP 0x03 (R95): `r1` is the round index minus 1 -/
  | subkeyRead (r1 : BitVec 4)
  /-- PERMUTE, OP 0x08 (R90): `t` is the table id -/
  | permute (t : BitVec 4)
  /-- SBOX, OP 0x09 (R102): `b1` is the S-box index minus 1 -/
  | sbox (b1 : BitVec 4)
  /-- ROUND_F, OP 0x0A (R103): `r1` is the round index minus 1 -/
  | roundF (r1 : BitVec 4)
  /-- BLOCK_ENC, OP 0x10 (R104) -/
  | blockEnc
  /-- BLOCK_DEC, OP 0x11 (R105) -/
  | blockDec
  /-- CBC_ENC_INIT, OP 0x20 (R112) -/
  | cbcEncInit
  /-- CBC_ENC_BLOCK, OP 0x21 (R113) -/
  | cbcEncBlock
  /-- CBC_ENC_FINAL, OP 0x22 (R114): `n` is the count of valid message bytes in DIN -/
  | cbcEncFinal (n : BitVec 4)
  /-- CBC_DEC_INIT, OP 0x24 (R115) -/
  | cbcDecInit
  /-- CBC_DEC_BLOCK, OP 0x25 (R116) -/
  | cbcDecBlock
  /-- CBC_DEC_FINAL, OP 0x26 (R117) -/
  | cbcDecFinal
  /-- CBC_ABORT, OP 0x27 (R118) -/
  | cbcAbort
  /-- DH_INIT, OP 0x30 (R124): `dflt` is ARG, bit 0 of it DEF and bits 3:1 zero -/
  | dhInit (dflt : BitVec 4)
  /-- DH_SHARED, OP 0x31 (R125) -/
  | dhShared
  /-- DH_CLEAR, OP 0x32 (R127) -/
  | dhClear
  /-- MODEXP, OP 0x38 (R128) -/
  | modexp
  /-- SOFT_RESET, OP 0x3F (R132) -/
  | softReset
  deriving DecidableEq, Repr

end Sys2Proof
end

