-- ==== Sys2Proof/WellFormed.lean ====
section
/-! DEFINITION. Which commands have a legal argument (spec/30_encoding.md rule R61, column 'legal ARG values'). A command
that is not well-formed has no word of its own: the core reports BAD_ARG for its bits (R65). -/

namespace Sys2Proof

/-- The argument of the command is in the legal set of R61 for its OP. -/
def Instr.wellFormed : Instr → Bool
  | .nop => true
  | .keyLoad _ => true
  | .keyFromDh => true
  | .subkeyRead _ => true
  | .permute t => decide (t.toNat ≤ 5)
  | .sbox b1 => decide (b1.toNat ≤ 7)
  | .roundF _ => true
  | .blockEnc => true
  | .blockDec => true
  | .cbcEncInit => true
  | .cbcEncBlock => true
  | .cbcEncFinal n => decide (n.toNat ≤ 7)
  | .cbcDecInit => true
  | .cbcDecBlock => true
  | .cbcDecFinal => true
  | .cbcAbort => true
  | .dhInit dflt => decide (dflt.toNat ≤ 1)
  | .dhShared => true
  | .dhClear => true
  | .modexp => true
  | .softReset => true

end Sys2Proof
end

