-- ==== Sys2Proof/Decode.lean ====
section
/-! DEFINITION. Command words (spec/30_encoding.md rules R60–R66): the decoder, total on all 32-bit words and rejecting by
name, and the encoder, written from the same table. -/

namespace Sys2Proof

/-- OP, bits 7:0 of a command word (R60). -/
def opField (w : Word) : BitVec 8 :=
  w.extractLsb' 0 8

/-- ARG, bits 11:8 of a command word (R60). -/
def argField (w : Word) : BitVec 4 :=
  w.extractLsb' 8 4

/-- RSV, bits 31:12 of a command word (R60). -/
def rsvField (w : Word) : BitVec 20 :=
  w.extractLsb' 12 20

/-- A command word from its fields (R60). -/
def wordOfFields (rsv : BitVec 20) (arg : BitVec 4) (op : BitVec 8) : Word :=
  rsv ++ arg ++ op

/-- A row of the opcode map (R63): its OP, the largest legal ARG (R61; every legal set is 0 to some largest value), and
the command that an ARG makes. -/
structure OpcodeRow where
  op : BitVec 8
  maxArg : Nat
  build : BitVec 4 → Instr

/-- The opcode map (R63). -/
def opcodeMap : List OpcodeRow :=
  [⟨0x00, 0, fun _ => .nop⟩,
   ⟨0x01, 15, .keyLoad⟩,
   ⟨0x02, 0, fun _ => .keyFromDh⟩,
   ⟨0x03, 15, .subkeyRead⟩,
   ⟨0x08, 5, .permute⟩,
   ⟨0x09, 7, .sbox⟩,
   ⟨0x0A, 15, .roundF⟩,
   ⟨0x10, 0, fun _ => .blockEnc⟩,
   ⟨0x11, 0, fun _ => .blockDec⟩] ++
  [⟨0x20, 0, fun _ => .cbcEncInit⟩,
   ⟨0x21, 0, fun _ => .cbcEncBlock⟩,
   ⟨0x22, 7, .cbcEncFinal⟩,
   ⟨0x24, 0, fun _ => .cbcDecInit⟩,
   ⟨0x25, 0, fun _ => .cbcDecBlock⟩,
   ⟨0x26, 0, fun _ => .cbcDecFinal⟩,
   ⟨0x27, 0, fun _ => .cbcAbort⟩] ++
  [⟨0x30, 1, .dhInit⟩,
   ⟨0x31, 0, fun _ => .dhShared⟩,
   ⟨0x32, 0, fun _ => .dhClear⟩,
   ⟨0x38, 0, fun _ => .modexp⟩,
   ⟨0x3F, 0, fun _ => .softReset⟩]

/-- Why a word is no command. -/
inductive DecodeError where
  /-- OP is none of the 21 opcodes (R64); checked first, whatever RSV and ARG hold (R139) -/
  | illegal
  /-- a legal OP with RSV ≠ 0, or with ARG outside its legal set (R65) -/
  | badArg
  deriving DecidableEq, Repr

/-- What a decoded word is: a command, or a rejection by name. -/
abbrev Decoded := Except DecodeError Instr

/-- Decode a word with a legal OP: RSV first, then ARG (R65). -/
def decodeRow (row : OpcodeRow) (w : Word) : Decoded :=
  if rsvField w = 0 then
    if (argField w).toNat ≤ row.maxArg then .ok (row.build (argField w)) else .error .badArg
  else .error .badArg

/-- Decode a command word (R63–R65). Every command is exactly one word, and no mode changes decoding (R62). -/
def decode (w : Word) : Decoded :=
  match opcodeMap.find? (fun row => row.op == opField w) with
  | some row => decodeRow row w
  | none => .error .illegal

/-- The opcode of a command (R63). -/
def Instr.op : Instr → BitVec 8
  | .nop => 0x00
  | .keyLoad _ => 0x01
  | .keyFromDh => 0x02
  | .subkeyRead _ => 0x03
  | .permute _ => 0x08
  | .sbox _ => 0x09
  | .roundF _ => 0x0A
  | .blockEnc => 0x10
  | .blockDec => 0x11
  | .cbcEncInit => 0x20
  | .cbcEncBlock => 0x21
  | .cbcEncFinal _ => 0x22
  | .cbcDecInit => 0x24
  | .cbcDecBlock => 0x25
  | .cbcDecFinal => 0x26
  | .cbcAbort => 0x27
  | .dhInit _ => 0x30
  | .dhShared => 0x31
  | .dhClear => 0x32
  | .modexp => 0x38
  | .softReset => 0x3F

/-- The argument field of a command (R61): 0 where ARG is unused. -/
def Instr.arg : Instr → BitVec 4
  | .keyLoad klen => klen
  | .subkeyRead r1 => r1
  | .permute t => t
  | .sbox b1 => b1
  | .roundF r1 => r1
  | .cbcEncFinal n => n
  | .dhInit dflt => dflt
  | .nop | .keyFromDh | .blockEnc | .blockDec | .cbcEncInit | .cbcEncBlock | .cbcDecInit | .cbcDecBlock
  | .cbcDecFinal | .cbcAbort | .dhShared | .dhClear | .modexp | .softReset => 0

/-- The word of a command (R60, R67: OP | ARG << 8, RSV = 0). -/
def encode (i : Instr) : Word :=
  wordOfFields 0 i.arg i.op

/-- The command the decoder reads from an instruction of `nbits` bits whose bits are `w`. A command is one 32-bit word
(R62), so bits from 32 up are bits of no command. -/
def decodeTableWord (nbits w : Nat) : Option Instr :=
  if w % 2 ^ nbits < 2 ^ 32 then
    match decode (BitVec.ofNat 32 (w % 2 ^ nbits)) with
    | .ok i => some i
    | .error _ => none
  else none

end Sys2Proof
end

