-- ==== Sys2Proof/Machine/Bits.lean ====
section
/-! DEFINITION. Bit sequences, bytes and bit fields: the notation of spec/00_scope.md rules R9–R11 and R14, and the
placement of bytes and words in registers of spec/20_memory.md rules R46 and R47. -/

namespace Sys2Proof.Machine

/-- `s⟨i⟩`: the bit at the 1-based position `i`, position 1 being the most significant bit (R9). -/
def bitAt {n : Nat} (s : BitVec n) (i : Nat) : Bool :=
  s.getMsbD (i - 1)

/-- `s⟨i..i+len−1⟩`: the `len` bits of `s` from position `i` on (R9). -/
def subseq {n : Nat} (s : BitVec n) (i len : Nat) : BitVec len :=
  s.extractLsb' (n - (i - 1) - len) len

/-- `permute(T, s)` (R14, R87): the sequence whose position `i` is `s⟨T[i]⟩`. The sequence has the table's length; `m` is
that length at every use. -/
def permute {n : Nat} (m : Nat) (T : List Nat) (s : BitVec n) : BitVec m :=
  BitVec.ofNat m (T.foldl (fun acc j => 2 * acc + (bitAt s j).toNat) 0)

/-- `s ‖ 0…0`: `s` moved to the first positions of a 64-bit sequence (R90, R95: top-aligned). -/
def topAlign {m : Nat} (s : BitVec m) : Block :=
  BitVec.ofNat 64 (s.toNat * 2 ^ (64 - m))

/-- Byte `k` of an 8-byte block, k in 0..7: byte 0 is the most significant (R46). -/
def byteOf (x : Block) (k : Nat) : Byte :=
  x.extractLsb' (56 - 8 * k) 8

/-- The block whose byte `k` is `f k` (R46). -/
def blockOfFn (f : Nat → Byte) : Block :=
  f 0 ++ f 1 ++ f 2 ++ f 3 ++ f 4 ++ f 5 ++ f 6 ++ f 7

/-- The 8 bytes of a block in order (R10: `bytes(s)`). -/
def bytesOf (x : Block) : List Byte :=
  (List.range 8).map (byteOf x)

/-- The block made of the first 8 bytes of a list (R10: `bits(b)`), a missing byte counting as 0. Every list the rules
give it has at least 8 bytes. -/
def blockOfBytes (l : List Byte) : Block :=
  blockOfFn (fun k => l.getD k 0)

/-- X0 of a register pair: block bytes 0..3 (R46). -/
def hiWord (x : Block) : Word :=
  x.extractLsb' 32 32

/-- X1 of a register pair: block bytes 4..7 (R46). -/
def loWord (x : Block) : Word :=
  x.extractLsb' 0 32

/-- A write of X0: it replaces the pair's first word and keeps the second. -/
def setHiWord (x : Block) (v : Word) : Block :=
  v ++ loWord x

/-- A write of X1: it replaces the pair's second word and keeps the first. -/
def setLoWord (x : Block) (v : Word) : Block :=
  hiWord x ++ v

/-- Word `k` of a big-number register: integer bits 32k to 32k+31, so word 0 is the least significant (R47). -/
def bigWord (x : Big) (k : Fin 64) : Word :=
  x.extractLsb' (32 * k.val) 32

/-- A write of word `k` of a big-number register: its other words stay (R47). -/
def setBigWord (x : Big) (k : Fin 64) (v : Word) : Big :=
  (x &&& ~~~((BitVec.allOnes 32).setWidth 2048 <<< (32 * k.val))) ||| (v.setWidth 2048 <<< (32 * k.val))

end Sys2Proof.Machine
end

