-- ==== Sys2Proof/Machine/State.lean ====
section
/-! DEFINITION. The state of CSCORE (spec/10_state.md), as plain data, and its value right after reset (R39). Three views
are computed, not stored, because the spec gives them no storage of their own: STATUS and CTRL as words, STATUS.ERRF
(always ERR.CODE ≠ 0, R21) and the interrupt output (always CTRL.IRQ_EN ∧ STATUS.DONE, R142): see Machine/Flags.lean. -/

namespace Sys2Proof.Machine

/-- The chain mode MODE (R33). -/
inductive ChainMode where
  | idle
  | enc
  | dec
  deriving DecidableEq, Repr

/-- ERR.CODE's values (R136). -/
inductive ErrCode where
  | ok
  | illegal
  | badArg
  | noKey
  | seq
  | pad
  | dhParam
  | dhState
  | modZero
  deriving DecidableEq, Repr

/-- The direction of a CHAIN_EV event (R150). -/
inductive ChainDir where
  | enc
  | dec
  deriving DecidableEq, Repr

/-- A trace event (R150). -/
inductive TraceEvent where
  /-- SUBKEY(r, K) -/
  | subkey (r : Nat) (k : Subkey)
  /-- ROUND(i, (x, o, f)): the expansion, the S-box output and the permuted output of round i -/
  | round (i : Nat) (x : Subkey) (o f : Half)
  /-- PAD(L) -/
  | padding (len : Byte)
  /-- UNPAD(L, ok) -/
  | unpad (len : Byte) (ok : Bool)
  /-- CHAIN_EV(dir, in, out) -/
  | chain (dir : ChainDir) (inp out : Block)
  deriving DecidableEq, Repr

/-- Whose move a step is. The spec's machine has two agents, host and core, whose order of steps is open but for the
host's program order and fairness (R53, R164), and a reset input (R153). The order is data in State (log entry 2). -/
inductive Turn where
  /-- the host's HostRead(off) (R42); `drawn` is the value it returns where R58 makes that a draw -/
  | read (off : WordOff) (drawn : Word)
  /-- the host's HostWrite(off, v) (R42) -/
  | write (off : WordOff) (v : Word)
  /-- the core's step: it executes and completes the pending command, if there is one (R36); `drawn` is the step's free
  input (R8) -/
  | core (drawn : Draw)
  /-- the reset input is asserted (R153) -/
  | reset
  deriving DecidableEq, Repr

/-- The state of CSCORE. -/
structure State where
  /-- CTRL.IRQ_EN (R20) -/
  irqEn : Bool
  /-- CTRL.TRACE_EN (R20) -/
  traceEn : Bool
  /-- STATUS.BUSY (R21) -/
  busy : Bool
  /-- STATUS.DONE (R21) -/
  done : Bool
  /-- STATUS.BUSY_VIOL (R21) -/
  busyViol : Bool
  /-- ERR.CODE (R22) -/
  err : ErrCode
  /-- CMD, the last command word issued (R23) -/
  cmd : Word
  /-- RESULT.NBYTES (R24) -/
  nbytes : BitVec 4
  /-- KEY (R25) -/
  key : Block
  /-- DIN (R26) -/
  din : Block
  /-- DOUT (R27) -/
  dout : Block
  /-- CHAIN (R28) -/
  chain : Block
  /-- DHKEY (R29) -/
  dhkey : Block
  /-- P (R30) -/
  p : Big
  /-- G (R30) -/
  g : Big
  /-- PUB (R31) -/
  pub : Big
  /-- PEER (R30) -/
  peer : Big
  /-- MX (R30) -/
  mx : Big
  /-- ME (R30) -/
  me : Big
  /-- MM (R30) -/
  mm : Big
  /-- MR (R31) -/
  mr : Big
  /-- SK[1..16] (R32): index r − 1 holds SK[r] -/
  sk : Vector Subkey 16
  /-- KEY_VALID (R32) -/
  keyValid : Bool
  /-- MODE (R33) -/
  mode : ChainMode
  /-- DH_KEYED (R34) -/
  dhKeyed : Bool
  /-- DHKEY_VALID (R34) -/
  dhkeyValid : Bool
  /-- PRIV (R35) -/
  priv : Big
  /-- SSEC (R35) -/
  ssec : Big
  /-- PSESS (R35) -/
  psess : Big
  /-- PEND (R36) -/
  pend : Word
  /-- PTRACE (R36) -/
  ptrace : Bool
  /-- the trace port's output (R37), oldest event first -/
  trace : List TraceEvent
  /-- the model's own: the free input of the core step that is being made (R8); each such step brings its own (log entry
  1) -/
  draw : Draw
  /-- the model's own: the free input of the core step that comes when nothing is scheduled; no rule changes it (log entry
  1) -/
  lastDraw : Draw
  /-- the model's own: the values the host's reads have returned, oldest first (log entry 3) -/
  busReads : List Word
  /-- the model's own: the moves still to come, first one first (log entry 2) -/
  schedule : List Turn
  deriving DecidableEq, Repr

/-- Why CSCORE would stop with a fault: never. Every command completes and every access has a defined effect
(spec/93_implementation_defined.md: no behaviour of CSCORE is modelled as stuck; R143: no traps), so the type has no
member and nobody raises one. Safe: nothing can be hidden behind a fault. -/
inductive Fault where
  deriving DecidableEq, Repr

/-- Why the model refuses a command. -/
inductive Refusal where
  /-- raised only by an arm of `exec` whose command has no meaning yet. Safe: the run stops. No arm raises it. -/
  | notModelled (mnemonic : String)
  deriving DecidableEq, Repr

/-- The state right after reset (R39, R153, R155): every piece of state at the value the spec states. Of the model's own
fields the free inputs are any values, nothing has been read, and no move is scheduled (DESIGN CHOICE, log entries 1–3). -/
def State.reset : State where
  irqEn := false
  traceEn := false
  busy := false
  done := false
  busyViol := false
  err := .ok
  cmd := 0
  nbytes := 0
  key := 0
  din := 0
  dout := 0
  chain := 0
  dhkey := 0
  p := 0
  g := 0
  pub := 0
  peer := 0
  mx := 0
  me := 0
  mm := 0
  mr := 0
  sk := Vector.replicate 16 0
  keyValid := false
  mode := .idle
  dhKeyed := false
  dhkeyValid := false
  priv := 0
  ssec := 0
  psess := 0
  pend := 0
  ptrace := false
  trace := []
  draw := Config.resetDraw
  lastDraw := Config.resetLastDraw
  busReads := []
  schedule := []

end Sys2Proof.Machine
end

