-- ==== Sys2Proof/Machine/Flags.lean ====
section
/-! DEFINITION. The status flags and the words that show them: ERR.CODE's encoding (spec/60_exceptions.md rule R136),
STATUS, CTRL, ERR and RESULT as words (spec/10_state.md rules R20–R22, R24), and the interrupt output (R142). -/

namespace Sys2Proof.Machine

/-- The code of an error name (R136). -/
def ErrCode.code : ErrCode → BitVec 8
  | .ok => 0x00
  | .illegal => 0x01
  | .badArg => 0x02
  | .noKey => 0x03
  | .seq => 0x04
  | .pad => 0x05
  | .dhParam => 0x06
  | .dhState => 0x07
  | .modZero => 0x08

/-- STATUS.MODE's encoding (R21, R33). -/
def ChainMode.code : ChainMode → BitVec 2
  | .idle => 0
  | .enc => 1
  | .dec => 2

/-- STATUS.ERRF: always equal to (ERR.CODE ≠ 0) (R21, R38). -/
def errFlag (s : State) : Bool :=
  s.err.code != 0

/-- The interrupt output (R142): level-sensitive, masked by CTRL.IRQ_EN. -/
def irq (s : State) : Bool :=
  s.irqEn && s.done

/-- STATUS as a word (R21). -/
def statusWord (s : State) : Word :=
  (0 : BitVec 23) ++ BitVec.ofBool s.busyViol ++ BitVec.ofBool s.dhkeyValid ++ BitVec.ofBool s.dhKeyed ++ s.mode.code
    ++ BitVec.ofBool s.keyValid ++ BitVec.ofBool (errFlag s) ++ BitVec.ofBool s.done ++ BitVec.ofBool s.busy

/-- CTRL as a word (R20). -/
def ctrlWord (s : State) : Word :=
  (0 : BitVec 30) ++ BitVec.ofBool s.traceEn ++ BitVec.ofBool s.irqEn

/-- ERR as a word (R22). -/
def errWord (s : State) : Word :=
  s.err.code.setWidth 32

/-- RESULT as a word (R24). -/
def resultWord (s : State) : Word :=
  s.nbytes.setWidth 32

/-- A write of CTRL: bits 0 and 1 are stored, the reserved bits are ignored (R20, R45). -/
def writeCtrl (v : Word) (s : State) : State :=
  { s with irqEn := v.getLsbD 0, traceEn := v.getLsbD 1 }

/-- A write of STATUS: each write-one-to-clear bit written as 1 is cleared; every other bit is ignored (R21, R44). -/
def writeStatus (v : Word) (s : State) : State :=
  { s with done := s.done && !v.getLsbD 1, busyViol := s.busyViol && !v.getLsbD 8 }

end Sys2Proof.Machine
end

