-- ==== Sys2Proof/Machine/Ops.lean ====
section
/-! DEFINITION. The operations every command and every step is made of: issuing a command word (spec/10_state.md rule
R23), completing it (spec/60_exceptions.md rule R137), refusing it (R138, the only form an exception takes here: R143),
the trace port (R150), the draws (spec/00_scope.md rule R8) and reset (spec/70_reset_and_hazards.md rule R153). -/

namespace Sys2Proof.Machine

/-- `done(code)` (R137): the one completion of a command. STATUS.ERRF and the interrupt output follow from ERR.CODE, DONE
and CTRL (Machine/Flags.lean). -/
def complete (code : ErrCode) (s : State) : State :=
  { s with err := code, done := true, busy := false }

/-- `raise Error(code)` (R138): complete with `code` and change nothing else. CSCORE takes no trap (R143): this is all
that an error does. -/
def raiseError (code : ErrCode) (s : State) : State :=
  complete code s

/-- The host's acknowledgement of a completion, a write of 1 to STATUS.DONE (R144): nothing is restored. -/
def acknowledge (s : State) : State :=
  writeStatus 0x00000002 s

/-- `if PTRACE: emit Trace(ev)` for each event of a list, in its order (R13, R150). -/
def emit (evs : List TraceEvent) (s : State) : State :=
  { s with trace := if s.ptrace then s.trace ++ evs else s.trace }

/-- A CMD write while BUSY = 0: the word is issued, whatever it is (R23, R69). -/
def issue (w : Word) (s : State) : State :=
  { s with cmd := w, pend := w, ptrace := s.traceEn, busy := true }

/-- `draw_bits(64)` (R13, R112): a free input of the step (R8). -/
def drawnIv (s : State) : Block :=
  s.draw.iv

/-- `draw_range(2, p − 2)` for p ≥ 4 (R13, R124): a free input of the step (R8), any integer of the range. -/
def drawnExponent (p : Nat) (s : State) : Nat :=
  2 + s.draw.exponent % (p - 3)

/-- Apply reset (R153): every element of CSCORE's state to its reset value; trace events already delivered stay (R37).
What is not CSCORE's state, the free inputs, the host's reads and the moves to come, is not reset. -/
def applyReset (s : State) : State :=
  { State.reset with
    trace := s.trace
    draw := s.draw
    lastDraw := s.lastDraw
    busReads := s.busReads
    schedule := s.schedule }

/-- The word the core executes, PEND (R36, R56). -/
def pendingWord (s : State) : Word :=
  s.pend

/-- The completion of a word that is no command (R64, R65). -/
def rejectWord (e : DecodeError) (s : State) : State :=
  match e with
  | .illegal => raiseError .illegal s
  | .badArg => raiseError .badArg s

end Sys2Proof.Machine
end

