-- ==== Sys2Proof/Machine/Bus.lean ====
section
/-! DEFINITION. The register window (spec/20_memory.md rules R41–R45, R58): the register at an offset, and the host's two
transfers. -/

namespace Sys2Proof.Machine

/-- The big-number registers, in the order of their offsets (R43). -/
inductive BigReg where
  | p
  | g
  | pub
  | peer
  | mx
  | me
  | mm
  | mr
  deriving DecidableEq, Repr

/-- What stands at an offset of the window (R43). -/
inductive WinReg where
  | id
  | ctrl
  | status
  | err
  | cmd
  | result
  | key0
  | key1
  | din0
  | din1
  | dout0
  | dout1
  | chain0
  | chain1
  | dhkey0
  | dhkey1
  /-- word `k` of a big-number register -/
  | big (r : BigReg) (k : Fin 64)
  | unmapped
  deriving DecidableEq, Repr

/-- The big-number register of a 256-byte page of the window, offsets 0x100·page to 0x100·page + 0xFC (R43). -/
def bigRegOfPage : Nat → Option BigReg
  | 1 => some .p
  | 2 => some .g
  | 3 => some .pub
  | 4 => some .peer
  | 5 => some .mx
  | 6 => some .me
  | 7 => some .mm
  | 8 => some .mr
  | _ => none

/-- The register of a byte offset below 0x100 (R43). -/
def lowReg : Nat → WinReg
  | 0x000 => .id
  | 0x004 => .ctrl
  | 0x008 => .status
  | 0x00C => .err
  | 0x010 => .cmd
  | 0x018 => .result
  | 0x020 => .key0
  | 0x024 => .key1
  | 0x030 => .din0
  | 0x034 => .din1
  | 0x038 => .dout0
  | 0x03C => .dout1
  | 0x040 => .chain0
  | 0x044 => .chain1
  | 0x050 => .dhkey0
  | 0x054 => .dhkey1
  | _ => .unmapped

/-- The register map (R43): what stands at a word offset. -/
def regAt (off : WordOff) : WinReg :=
  if off.val < 64 then lowReg (4 * off.val)
  else
    match bigRegOfPage (off.val / 64) with
    | some r => .big r ⟨off.val % 64, Nat.mod_lt _ (by decide)⟩
    | none => .unmapped

/-- The word offset of a byte offset that is a multiple of 4 below 0x1000 (R42). -/
def wordOff (byteOffset : Nat) : WordOff :=
  ⟨byteOffset / 4 % 1024, Nat.mod_lt _ (by decide)⟩

/-- The value of a big-number register (R30, R31). -/
def bigValue (r : BigReg) (s : State) : Big :=
  match r with
  | .p => s.p
  | .g => s.g
  | .pub => s.pub
  | .peer => s.peer
  | .mx => s.mx
  | .me => s.me
  | .mm => s.mm
  | .mr => s.mr

/-- The current value of what stands at an offset (R44, R45): an unmapped offset reads 0. -/
def regValue (r : WinReg) (s : State) : Word :=
  match r with
  | .id => Config.idValue
  | .ctrl => ctrlWord s
  | .status => statusWord s
  | .err => errWord s
  | .cmd => s.cmd
  | .result => resultWord s
  | .key0 => hiWord s.key
  | .key1 => loWord s.key
  | .din0 => hiWord s.din
  | .din1 => loWord s.din
  | .dout0 => hiWord s.dout
  | .dout1 => loWord s.dout
  | .chain0 => hiWord s.chain
  | .chain1 => loWord s.chain
  | .dhkey0 => hiWord s.dhkey
  | .dhkey1 => loWord s.dhkey
  | .big r k => bigWord (bigValue r s) k
  | .unmapped => 0

/-- A write of a word of a big-number register; PUB and MR are read-only and ignore it (R30, R31, R44). -/
def writeBig (r : BigReg) (k : Fin 64) (v : Word) (s : State) : State :=
  match r with
  | .p => { s with p := setBigWord s.p k v }
  | .g => { s with g := setBigWord s.g k v }
  | .pub => s
  | .peer => { s with peer := setBigWord s.peer k v }
  | .mx => { s with mx := setBigWord s.mx k v }
  | .me => { s with me := setBigWord s.me k v }
  | .mm => { s with mm := setBigWord s.mm k v }
  | .mr => s

/-- The effect of a write while BUSY = 0 (R44): a read-only register and an unmapped offset ignore it, CMD issues. -/
def writeIdle (r : WinReg) (v : Word) (s : State) : State :=
  match r with
  | .ctrl => writeCtrl v s
  | .status => writeStatus v s
  | .cmd => issue v s
  | .key0 => { s with key := setHiWord s.key v }
  | .key1 => { s with key := setLoWord s.key v }
  | .din0 => { s with din := setHiWord s.din v }
  | .din1 => { s with din := setLoWord s.din v }
  | .big r k => writeBig r k v s
  | .id | .err | .result | .dout0 | .dout1 | .chain0 | .chain1 | .dhkey0 | .dhkey1 | .unmapped => s

/-- The effect of a write while BUSY = 1 (R58): CTRL and STATUS as when idle; any other is dropped and sets BUSY_VIOL. -/
def writeBusy (r : WinReg) (v : Word) (s : State) : State :=
  match r with
  | .ctrl => writeCtrl v s
  | .status => writeStatus v s
  | .id | .err | .cmd | .result | .key0 | .key1 | .din0 | .din1 | .dout0 | .dout1 | .chain0 | .chain1 | .dhkey0
  | .dhkey1 | .big _ _ | .unmapped => { s with busyViol := true }

/-- Which registers a read returns while BUSY = 1 (R58); a read of any other offset returns a draw. -/
def readableBusy : WinReg → Bool
  | .id | .ctrl | .status | .cmd => true
  | .err | .result | .key0 | .key1 | .din0 | .din1 | .dout0 | .dout1 | .chain0 | .chain1 | .dhkey0 | .dhkey1
  | .big _ _ | .unmapped => false

/-- The host is given the value of its read. -/
def deliver (v : Word) (s : State) : State :=
  { s with busReads := s.busReads ++ [v] }

/-- HostRead(off) (R42, R44, R58). `drawn` is the draw that the read returns where R58 says so. -/
def hostRead (off : WordOff) (drawn : Word) (s : State) : State :=
  if s.busy && !readableBusy (regAt off) then deliver drawn s
  else deliver (regValue (regAt off) s) s

/-- HostWrite(off, v) (R42, R44, R58). -/
def hostWrite (off : WordOff) (v : Word) (s : State) : State :=
  if s.busy then writeBusy (regAt off) v s else writeIdle (regAt off) v s

end Sys2Proof.Machine
end

