-- ==== Sys2Proof/Machine/Operands.lean ====
section
/-! DEFINITION. The operand forms of the commands (spec/30_encoding.md rule R61): what a command makes of its ARG field,
and the parts of DIN and of the subkey file it reads. ARG is unsigned, never scaled or shifted. -/

namespace Sys2Proof.Machine

/-- KEY_LOAD's n = min(KLEN, 8) (R61, R91). -/
def keyLength (klen : BitVec 4) : Nat :=
  min klen.toNat 8

/-- SUBKEY_READ's and ROUND_F's round r = ARG + 1, in 1..16 (R61). -/
def roundIndex (arg : BitVec 4) : Nat :=
  arg.toNat + 1

/-- SBOX's box = ARG + 1 (R61). -/
def boxIndex (arg : BitVec 4) : Nat :=
  arg.toNat + 1

/-- CBC_ENC_FINAL's pad length L = 8 − n (R61, R114). -/
def padLength (n : BitVec 4) : Nat :=
  8 - n.toNat

/-- DH_INIT's DEF, bit 0 of ARG (R61). -/
def defBit (arg : BitVec 4) : Bool :=
  arg.getLsbD 0

/-- SK[r] for a round r in 1..16 (R32). -/
def subkeyOf (sk : Vector Subkey 16) (r : Nat) : Subkey :=
  sk.toList.getD (r - 1) 0

/-- DIN0[5:0], the group SBOX looks up (R102). -/
def sboxGroup (s : State) : BitVec 6 :=
  (hiWord s.din).extractLsb' 0 6

/-- The half-block ROUND_F reads, DIN0 (R103). -/
def roundInput (s : State) : Half :=
  hiWord s.din

/-- A block whose DOUT0 is `v` and whose DOUT1 is 0 (R102, R103). -/
def lowZero (v : Word) : Block :=
  v ++ (0 : Word)

end Sys2Proof.Machine
end

