-- ==== Sys2Proof/Machine/KeySchedule.lean ====
section
/-! DEFINITION. The permutation engine and the key schedule (spec/41_permute_keysched.md): PERMUTE, KEY_LOAD, KEY_FROM_DH
and SUBKEY_READ. -/

namespace Sys2Proof.Machine

/-- PERMUTE's output for a legal table id (R89, R90): the table applied to the first positions of DIN, top-aligned. -/
def permuteByTable (t : BitVec 4) (din : Block) : Block :=
  match t.toNat with
  | 0 => topAlign (permute 64 ipTable din)
  | 1 => topAlign (permute 64 fpTable din)
  | 2 => topAlign (permute 56 pc1Table din)
  | 3 => topAlign (permute 48 pc2Table (subseq din 1 56))
  | 4 => topAlign (permute 48 eTable (subseq din 1 32))
  | _ => topAlign (permute 32 pTable (subseq din 1 32))

/-- `normkey` (R91): the first min(KLEN, 8) bytes of KEY, zero bytes after them. -/
def normKey (key : Block) (klen : BitVec 4) : Block :=
  blockOfFn (fun k => if k < keyLength klen then byteOf key k else 0)

/-- The rounds of `keysched` (R92): the rotations are cumulative, one subkey a round. -/
def scheduleRounds : List Nat → KsHalf → KsHalf → List Subkey
  | [], _, _ => []
  | shift :: shifts, c, d =>
    let c' := c.rotateLeft shift
    let d' := d.rotateLeft shift
    permute 48 pc2Table (c' ++ d') :: scheduleRounds shifts c' d'

/-- There is one subkey for each rotation. -/
theorem scheduleRounds_length (shifts : List Nat) (c d : KsHalf) :
    (scheduleRounds shifts c d).length = shifts.length := by
  induction shifts generalizing c d with
  | nil => rfl
  | cons _ _ ih => exact congrArg (· + 1) (ih _ _)

/-- `keysched` (R92) of a normalised key, as a 64-bit sequence. -/
def keySchedule (nk : Block) : Vector Subkey 16 :=
  let cd := permute 56 pc1Table nk
  ⟨(scheduleRounds shiftTable (subseq cd 1 28) (subseq cd 29 28)).toArray,
   by rw [List.size_toArray, scheduleRounds_length]; rfl⟩

/-- The SUBKEY events of a key load, r = 1..16 (R93, R150). -/
def subkeyEvents (sk : Vector Subkey 16) : List TraceEvent :=
  (List.range' 1 16).map (fun r => .subkey r (subkeyOf sk r))

/-- SK[1..16] and KEY_VALID written, with the trace of a key load (R93, R94). -/
def loadSubkeys (sk : Vector Subkey 16) (s : State) : State :=
  emit (subkeyEvents sk) { s with sk := sk, keyValid := true }

/-- KEY_LOAD (R93). -/
def execKeyLoad (klen : BitVec 4) (s : State) : Host.Outcome State Fault Refusal :=
  .next
    (if s.mode ≠ .idle then raiseError .seq s
     else complete .ok (loadSubkeys (keySchedule (normKey s.key klen)) s))

/-- KEY_FROM_DH (R94). -/
def execKeyFromDh (s : State) : Host.Outcome State Fault Refusal :=
  .next
    (if s.mode ≠ .idle then raiseError .seq s
     else if s.dhkeyValid = false then raiseError .dhState s
     else complete .ok (loadSubkeys (keySchedule (normKey s.dhkey 8)) { s with key := s.dhkey }))

/-- SUBKEY_READ (R95). -/
def execSubkeyRead (r1 : BitVec 4) (s : State) : Host.Outcome State Fault Refusal :=
  .next
    (if s.keyValid = false then raiseError .noKey s
     else complete .ok { s with dout := topAlign (subkeyOf s.sk (roundIndex r1)) })

/-- PERMUTE (R90). -/
def execPermute (t : BitVec 4) (s : State) : Host.Outcome State Fault Refusal :=
  .next
    (if t.toNat > 5 then raiseError .badArg s
     else complete .ok { s with dout := permuteByTable t s.din })

end Sys2Proof.Machine
end

