-- ==== Sys2Proof/Machine/BlockCipher.lean ====
section
/-! DEFINITION. S-box substitution, the round function and the block cipher core (spec/42_round_block.md): SBOX, ROUND_F,
BLOCK_ENC and BLOCK_DEC. -/

namespace Sys2Proof.Machine

/-- The row of a 6-bit group: its two outer bits (R98). -/
def sboxRow (g : BitVec 6) : Nat :=
  2 * (bitAt g 1).toNat + (bitAt g 6).toNat

/-- The column of a 6-bit group: its four inner bits (R98). -/
def sboxCol (g : BitVec 6) : Nat :=
  8 * (bitAt g 2).toNat + 4 * (bitAt g 3).toNat + 2 * (bitAt g 4).toNat + (bitAt g 5).toNat

/-- `sbox(i, g)` for i in 1..8 (R98). -/
def sboxLookup (i : Nat) (g : BitVec 6) : BitVec 4 :=
  BitVec.ofNat 4 (((sboxTables.getD (i - 1) []).getD (sboxRow g) []).getD (sboxCol g) 0)

/-- S-box i applied to group i of 48 bits, group i being y⟨6i−5..6i⟩ (R99). -/
def sboxOnGroup (y : Subkey) (i : Nat) : BitVec 4 :=
  sboxLookup i (subseq y (6 * i - 5) 6)

/-- The eight S-box outputs in order (R99). -/
def substitute (y : Subkey) : Half :=
  sboxOnGroup y 1 ++ sboxOnGroup y 2 ++ sboxOnGroup y 3 ++ sboxOnGroup y 4 ++ sboxOnGroup y 5 ++ sboxOnGroup y 6
    ++ sboxOnGroup y 7 ++ sboxOnGroup y 8

/-- The expansion x of a half-block (R99). -/
def expand (r : Half) : Subkey :=
  permute 48 eTable r

/-- The f part of `F(R, K)` (R99). -/
def roundF (r : Half) (k : Subkey) : Half :=
  permute 32 pTable (substitute (expand r ^^^ k))

/-- ROUND(i, ev) with the ev part of `F(R, K)` (R99, R150). -/
def roundEvent (i : Nat) (r : Half) (k : Subkey) : TraceEvent :=
  .round i (expand r) (substitute (expand r ^^^ k)) (roundF r k)

/-- The subkeys in the order the rounds use them: SK[j] with j = i for encryption and j = 17 − i for decryption (R100). -/
def subkeyOrder (sk : Vector Subkey 16) (enc : Bool) : List Subkey :=
  (List.range' 1 16).map (fun i => subkeyOf sk (if enc then i else 17 - i))

/-- The rounds of `des_block` (R100): (L, R) ← (R, L ⊕ F(R, K)) for each subkey. -/
def feistel : List Subkey → Half × Half → Half × Half
  | [], lr => lr
  | k :: ks, (l, r) => feistel ks (r, l ^^^ roundF r k)

/-- The ROUND events of `des_block` from round `i` on (R100, R150). -/
def feistelEvents : Nat → List Subkey → Half × Half → List TraceEvent
  | _, [], _ => []
  | i, k :: ks, (l, r) => roundEvent i r k :: feistelEvents (i + 1) ks (r, l ^^^ roundF r k)

/-- L₀ and R₀ of a block (R100). -/
def initialHalves (b : Block) : Half × Half :=
  let v := permute 64 ipTable b
  (subseq v 1 32, subseq v 33 32)

/-- The c part of `des_block(b, enc)` under the subkey file (R100): note the swap R₁₆ ‖ L₁₆. -/
def desBlock (sk : Vector Subkey 16) (enc : Bool) (b : Block) : Block :=
  let lr := feistel (subkeyOrder sk enc) (initialHalves b)
  permute 64 fpTable ((lr.2 ++ lr.1 : Block))

/-- The evs part of `des_block(b, enc)` (R100). -/
def desEvents (sk : Vector Subkey 16) (enc : Bool) (b : Block) : List TraceEvent :=
  feistelEvents 1 (subkeyOrder sk enc) (initialHalves b)

/-- SBOX (R102). -/
def execSbox (b1 : BitVec 4) (s : State) : Host.Outcome State Fault Refusal :=
  .next
    (if b1.toNat > 7 then raiseError .badArg s
     else complete .ok { s with dout := lowZero ((sboxLookup (boxIndex b1) (sboxGroup s)).setWidth 32) })

/-- ROUND_F (R103). -/
def execRoundF (r1 : BitVec 4) (s : State) : Host.Outcome State Fault Refusal :=
  .next
    (if s.keyValid = false then raiseError .noKey s
     else
      let k := subkeyOf s.sk (roundIndex r1)
      complete .ok
        (emit [roundEvent (roundIndex r1) (roundInput s) k] { s with dout := lowZero (roundF (roundInput s) k) }))

/-- BLOCK_ENC (R104). -/
def execBlockEnc (s : State) : Host.Outcome State Fault Refusal :=
  .next
    (if s.keyValid = false then raiseError .noKey s
     else complete .ok (emit (desEvents s.sk true s.din) { s with dout := desBlock s.sk true s.din }))

/-- BLOCK_DEC (R105). -/
def execBlockDec (s : State) : Host.Outcome State Fault Refusal :=
  .next
    (if s.keyValid = false then raiseError .noKey s
     else complete .ok (emit (desEvents s.sk false s.din) { s with dout := desBlock s.sk false s.din }))

end Sys2Proof.Machine
end

