-- ==== Sys2Proof/Machine/Cbc.lean ====
section
/-! DEFINITION. CBC chaining and padding as streaming commands (spec/43_cbc.md rules R111–R118): CBC_ENC_INIT,
CBC_ENC_BLOCK, CBC_ENC_FINAL, CBC_DEC_INIT, CBC_DEC_BLOCK, CBC_DEC_FINAL and CBC_ABORT. -/

namespace Sys2Proof.Machine

/-- The checks of a CBC command in R139's order: NO_KEY, then SEQ when the chain mode is not the one it needs (R111). -/
def cbcChecked (needs : ChainMode) (s : State) (effect : State) : State :=
  if s.keyValid = false then raiseError .noKey s
  else if s.mode ≠ needs then raiseError .seq s
  else effect

/-- The last message block with its padding: bytes 0..n−1 of DIN, then bytes of value L = 8 − n (R106, R114). -/
def paddedBlock (din : Block) (n : BitVec 4) : Block :=
  blockOfFn (fun k => if k < n.toNat then byteOf din k else BitVec.ofNat 8 (padLength n))

/-- The padding check on the last block (R107, R117): L is in 1..8 and bytes 8−L..7 all equal L. -/
def paddingOk (p : Block) : Bool :=
  let len := byteOf p 7
  decide (1 ≤ len.toNat) && decide (len.toNat ≤ 8)
    && (List.range 8).all (fun k => decide (k < 8 - len.toNat) || byteOf p k == len)

/-- The last block with its padding bytes zeroed (R117). -/
def stripPadding (p : Block) : Block :=
  blockOfFn (fun k => if k < 8 - (byteOf p 7).toNat then byteOf p k else 0)

/-- RESULT.NBYTES of a block with valid padding: 8 − L (R117). -/
def validBytes (p : Block) : BitVec 4 :=
  BitVec.ofNat 4 (8 - (byteOf p 7).toNat)

/-- CBC_ENC_INIT (R112). -/
def execCbcEncInit (s : State) : Host.Outcome State Fault Refusal :=
  .next
    (cbcChecked .idle s
      (complete .ok { s with chain := drawnIv s, dout := drawnIv s, mode := .enc }))

/-- CBC_ENC_BLOCK (R113). -/
def execCbcEncBlock (s : State) : Host.Outcome State Fault Refusal :=
  let x := s.din ^^^ s.chain
  let c := desBlock s.sk true x
  .next
    (cbcChecked .enc s
      (complete .ok (emit (desEvents s.sk true x ++ [.chain .enc x c]) { s with dout := c, chain := c })))

/-- CBC_ENC_FINAL (R114). -/
def execCbcEncFinal (n : BitVec 4) (s : State) : Host.Outcome State Fault Refusal :=
  let x := paddedBlock s.din n ^^^ s.chain
  let c := desBlock s.sk true x
  .next
    (if n.toNat > 7 then raiseError .badArg s
     else
      cbcChecked .enc s
        (complete .ok
          (emit (.padding (BitVec.ofNat 8 (padLength n)) :: desEvents s.sk true x ++ [.chain .enc x c])
            { s with dout := c, chain := c, mode := .idle })))

/-- CBC_DEC_INIT (R115). -/
def execCbcDecInit (s : State) : Host.Outcome State Fault Refusal :=
  .next (cbcChecked .idle s (complete .ok { s with chain := s.din, mode := .dec }))

/-- CBC_DEC_BLOCK (R116): CHAIN takes the raw cipher block. -/
def execCbcDecBlock (s : State) : Host.Outcome State Fault Refusal :=
  let p := desBlock s.sk false s.din ^^^ s.chain
  .next
    (cbcChecked .dec s
      (complete .ok (emit (desEvents s.sk false s.din ++ [.chain .dec s.din p]) { s with dout := p, chain := s.din })))

/-- CBC_DEC_FINAL (R117): the message ends and the trace is emitted whether or not the padding is valid. PAD is the one
code that comes with effects (R138). -/
def execCbcDecFinal (s : State) : Host.Outcome State Fault Refusal :=
  let p := desBlock s.sk false s.din ^^^ s.chain
  let ended :=
    emit (desEvents s.sk false s.din ++ [.chain .dec s.din p, .unpad (byteOf p 7) (paddingOk p)])
      { s with chain := s.din, mode := .idle }
  .next
    (cbcChecked .dec s
      (if paddingOk p then complete .ok { ended with dout := stripPadding p, nbytes := validBytes p }
       else complete .pad { ended with dout := 0, nbytes := 0 }))

/-- CBC_ABORT (R118). -/
def execCbcAbort (s : State) : Host.Outcome State Fault Refusal :=
  .next (complete .ok { s with mode := .idle })

end Sys2Proof.Machine
end

