-- ==== Sys2Proof/Machine/Dh.lean ====
section
/-! DEFINITION. The Diffie–Hellman module and the modular-exponentiation engine (spec/44_dh_modexp.md): DH_INIT,
DH_SHARED, DH_CLEAR and MODEXP. -/

namespace Sys2Proof.Machine

/-- Square-and-multiply over the low `fuel` bits of the exponent, every product reduced at once (R121). -/
def modexpBits : Nat → Nat → Nat → Nat → Nat
  | 0, _, _, m => 1 % m
  | fuel + 1, b, e, m =>
    if e = 0 then 1 % m
    else
      let t := modexpBits fuel (b * b % m) (e / 2) m
      if e % 2 = 1 then b * t % m else t

/-- `modexp(b, e, m)` for e < 2^NB and m ≥ 1 (R121): (b^e) mod m. The method is not observable (R121, R164); this one
reads the exponent from its least significant bit (log entry 17). For m = 0, where R121 gives no value, a free value. -/
def modexp (b e m : Nat) : Nat :=
  if m = 0 then Config.modexpByZero b e else modexpBits nb (b % m) e m

/-- `dh_valid(p, g)` (R122). Primality is not tested. -/
def dhValid (p g : Nat) : Bool :=
  decide (4 ≤ p) && decide (2 ≤ g) && decide (g < p)

/-- `KDF(S)`: the first 8 bytes of H_DH(ENC_S(S)) (R126). -/
def kdf (S : Nat) : List Byte :=
  (Config.hDh (Config.encS S)).bytes.take 8

/-- DH_INIT (R124). With DEF = 1 the defaults go into P and G before the check. -/
def execDhInit (dflt : BitVec 4) (s : State) : Host.Outcome State Fault Refusal :=
  let p := if defBit dflt then Config.pDefault else s.p
  let g := if defBit dflt then Config.gDefault else s.g
  let a := drawnExponent p.toNat s
  .next
    (if dflt.toNat > 1 then raiseError .badArg s
     else if dhValid p.toNat g.toNat = false then raiseError .dhParam s
     else
      complete .ok
        { s with
          p := p
          g := g
          psess := p
          priv := BitVec.ofNat 2048 a
          pub := BitVec.ofNat 2048 (modexp g.toNat a p.toNat)
          ssec := 0
          dhkey := 0
          dhKeyed := true
          dhkeyValid := false })

/-- DH_SHARED (R125): the peer's value is not checked (R130). -/
def execDhShared (s : State) : Host.Outcome State Fault Refusal :=
  let S := modexp s.peer.toNat s.priv.toNat s.psess.toNat
  .next
    (if s.dhKeyed = false then raiseError .dhState s
     else
      complete .ok
        { s with ssec := BitVec.ofNat 2048 S, dhkey := blockOfBytes (kdf S), dhkeyValid := true })

/-- DH_CLEAR (R127). -/
def execDhClear (s : State) : Host.Outcome State Fault Refusal :=
  .next
    (complete .ok { s with priv := 0, ssec := 0, pub := 0, dhkey := 0, dhKeyed := false, dhkeyValid := false })

/-- MODEXP (R128). -/
def execModexp (s : State) : Host.Outcome State Fault Refusal :=
  .next
    (if s.mm = 0 then raiseError .modZero s
     else complete .ok { s with mr := BitVec.ofNat 2048 (modexp s.mx.toNat s.me.toNat s.mm.toNat) })

end Sys2Proof.Machine
end

