-- ==== Sys2Proof/Machine/System.lean ====
section
/-! DEFINITION. The system commands (spec/45_system.md): NOP and SOFT_RESET. -/

namespace Sys2Proof.Machine

/-- NOP (R131). -/
def execNop (s : State) : Host.Outcome State Fault Refusal :=
  .next (complete .ok s)

/-- SOFT_RESET (R132): reset is applied, then DONE is set; there is no other completion (R137). -/
def execSoftReset (s : State) : Host.Outcome State Fault Refusal :=
  .next { applyReset s with done := true }

end Sys2Proof.Machine
end

