-- ==== Sys2Proof/Machine/Dispatch.lean ====
section
/-! DEFINITION. The meaning of each command: one arm for each constructor of Instr (spec/30_encoding.md rule R63). -/

namespace Sys2Proof.Machine

def exec (i : Instr) (s : State) : Host.Outcome State Fault Refusal :=
  match i with
  | .nop => Sys2Proof.Machine.execNop s
  | .keyLoad klen => Sys2Proof.Machine.execKeyLoad klen s
  | .keyFromDh => Sys2Proof.Machine.execKeyFromDh s
  | .subkeyRead r1 => Sys2Proof.Machine.execSubkeyRead r1 s
  | .permute t => Sys2Proof.Machine.execPermute t s
  | .sbox b1 => Sys2Proof.Machine.execSbox b1 s
  | .roundF r1 => Sys2Proof.Machine.execRoundF r1 s
  | .blockEnc => Sys2Proof.Machine.execBlockEnc s
  | .blockDec => Sys2Proof.Machine.execBlockDec s
  | .cbcEncInit => Sys2Proof.Machine.execCbcEncInit s
  | .cbcEncBlock => Sys2Proof.Machine.execCbcEncBlock s
  | .cbcEncFinal n => Sys2Proof.Machine.execCbcEncFinal n s
  | .cbcDecInit => Sys2Proof.Machine.execCbcDecInit s
  | .cbcDecBlock => Sys2Proof.Machine.execCbcDecBlock s
  | .cbcDecFinal => Sys2Proof.Machine.execCbcDecFinal s
  | .cbcAbort => Sys2Proof.Machine.execCbcAbort s
  | .dhInit dflt => Sys2Proof.Machine.execDhInit dflt s
  | .dhShared => Sys2Proof.Machine.execDhShared s
  | .dhClear => Sys2Proof.Machine.execDhClear s
  | .modexp => Sys2Proof.Machine.execModexp s
  | .softReset => Sys2Proof.Machine.execSoftReset s

end Sys2Proof.Machine
end

