-- ==== Sys2Proof/Machine/Sequencer.lean ====
section
/-! DEFINITION. The command sequencer (spec/10_state.md rules R18 and R36) and one move of each agent (spec/20_memory.md
rule R53, spec/70_reset_and_hazards.md rules R153 and R164). -/

namespace Sys2Proof.Machine

/-- The core's step: with BUSY = 1 it decodes the word in PEND, executes and completes it (R36, R69), `drawn` being the
step's free input (R8); with BUSY = 0 the core is idle and nothing happens (R18, R152). -/
def coreStep (drawn : Draw) (s : State) : Host.Outcome State Fault Refusal :=
  if s.busy then
    match decode (pendingWord s) with
    | .ok i => exec i { s with draw := drawn }
    | .error e => .next (rejectWord e s)
  else .next s

/-- One scheduled move. -/
def turnStep (t : Turn) (s : State) : Host.Outcome State Fault Refusal :=
  match t with
  | .read off drawn => .next (hostRead off drawn s)
  | .write off v => .next (hostWrite off v s)
  | .core drawn => coreStep drawn s
  | .reset => .next (applyReset s)

/-- The next move: the first one scheduled; where none is, the core's, so that a pending command is always executed in
the end (R164). -/
def nextMove (s : State) : Host.Outcome State Fault Refusal :=
  match s.schedule with
  | [] => coreStep s.lastDraw s
  | t :: rest => turnStep t { s with schedule := rest }

/-- The state in which word `w` has been issued (R23) and the core moves next, with the free input that `s` holds. -/
def placeCommand (w : Word) (s : State) : State :=
  { issue w s with schedule := .core s.draw :: s.schedule }

end Sys2Proof.Machine
end

