-- ==== Sys2Proof/Machine/Step.lean ====
section
/-! DEFINITION. One step of CSCORE and its host, and the placing of a command word. -/

namespace Sys2Proof.Machine

/-- One step: one move of the host, the core or the reset input (R4, R53, R153). -/
def step (s : State) : Host.Outcome State Fault Refusal :=
  nextMove s

/-- CSCORE fetches nothing: the word the core executes is the one the host wrote to CMD (R18, R56). So the word is placed
as a CMD write in the idle state places it, with the core's step next; a command is one 32-bit word (R62). Log entry 9. -/
def State.withFetchWord (s : State) (nbits w : Nat) : State :=
  placeCommand (BitVec.ofNat 32 (w % 2 ^ nbits)) s

end Sys2Proof.Machine
end

