-- ==== Sys2Proof/Machine/HostProgram.lean ====
section
/-! DEFINITION. Host programs (spec/30_encoding.md rules R67 and R68): the operations of the host's notation, the bus
transfers they stand for, the values the host makes of what it reads, and the reading of an operation from its tokens. How
characters make tokens is not modelled (log entry 14). -/

namespace Sys2Proof.Machine

/-- The 64-bit register pairs that `wr64` and `rd64` name (R68). -/
inductive PairReg where
  | key
  | din
  | dout
  | chain
  | dhkey
  deriving DecidableEq, Repr

/-- What the notation leaves to the run: free inputs (R8, R58) and the length of a poll loop (R164). Log entry 14. -/
structure RunChoice where
  /-- how many reads of STATUS a poll loop makes before the core's step -/
  polls : Nat
  /-- the free input of the core's step -/
  core : Draw
  /-- what the reads of the operation return where R58 makes that a draw, word k for the k-th read -/
  bus : Big
  deriving DecidableEq, Repr

/-- An operation of a host program (R67, R68). -/
inductive HostOp where
  | wr (r : WinReg) (v : Word)
  | rd (r : WinReg)
  | cmd (i : Instr)
  /-- a CMD write of a word given as a number -/
  | cmdWord (w : Word)
  | wait
  | run (i : Instr)
  | wr64 (r : PairReg) (x : Block)
  | rd64 (r : PairReg)
  | wrbig (r : BigReg) (n : Nat)
  | rdbig (r : BigReg)
  | clrdone
  | chkok
  deriving DecidableEq, Repr

/-- An item of a run of a host program: an operation, or a place where the core's step falls outside a poll loop. The
place is no part of the notation: after a CMD write the core's step may come before or after any later access (R53,
R164), and a run says where (DESIGN CHOICE, log entry 14). -/
inductive RunItem where
  | op (o : HostOp) (c : RunChoice)
  | coreStep (drawn : Draw)
  deriving DecidableEq, Repr

/-- The base byte offset of a big-number register (R43). -/
def bigBase : BigReg → Nat
  | .p => 0x100
  | .g => 0x200
  | .pub => 0x300
  | .peer => 0x400
  | .mx => 0x500
  | .me => 0x600
  | .mm => 0x700
  | .mr => 0x800

/-- The offset of a register name (R43, R67). An unmapped offset has no name; 0x014 stands for one of them. -/
def offsetOf : WinReg → WordOff
  | .id => wordOff 0x000
  | .ctrl => wordOff 0x004
  | .status => wordOff 0x008
  | .err => wordOff 0x00C
  | .cmd => wordOff 0x010
  | .result => wordOff 0x018
  | .key0 => wordOff 0x020
  | .key1 => wordOff 0x024
  | .din0 => wordOff 0x030
  | .din1 => wordOff 0x034
  | .dout0 => wordOff 0x038
  | .dout1 => wordOff 0x03C
  | .chain0 => wordOff 0x040
  | .chain1 => wordOff 0x044
  | .dhkey0 => wordOff 0x050
  | .dhkey1 => wordOff 0x054
  | .big r k => wordOff (bigBase r + 4 * k.val)
  | .unmapped => wordOff 0x014

/-- The two registers of a pair (R68). -/
def pairRegs : PairReg → WinReg × WinReg
  | .key => (.key0, .key1)
  | .din => (.din0, .din1)
  | .dout => (.dout0, .dout1)
  | .chain => (.chain0, .chain1)
  | .dhkey => (.dhkey0, .dhkey1)

/-- The `k`-th read of an operation. -/
def readTurn (c : RunChoice) (r : WinReg) (k : Fin 64) : Turn :=
  .read (offsetOf r) (bigWord c.bus k)

/-- The moves of a poll loop, with a core's step inside it: `polls` reads of STATUS come before the core's step, one after
it (R68). Where the command has completed before the loop, that step finds the core idle. -/
def waitTurns (c : RunChoice) : List Turn :=
  List.replicate c.polls (readTurn c .status 0) ++ [.core c.core, readTurn c .status 0]

/-- What an operation expands to (R67, R68). -/
def HostOp.turns (op : HostOp) (c : RunChoice) : List Turn :=
  match op with
  | .wr r v => [.write (offsetOf r) v]
  | .rd r => [readTurn c r 0]
  | .cmd i => [.write (offsetOf .cmd) (encode i)]
  | .cmdWord w => [.write (offsetOf .cmd) w]
  | .wait => waitTurns c
  | .run i => .write (offsetOf .cmd) (encode i) :: waitTurns c
  | .wr64 r x => [.write (offsetOf (pairRegs r).1) (hiWord x), .write (offsetOf (pairRegs r).2) (loWord x)]
  | .rd64 r => [readTurn c (pairRegs r).1 0, readTurn c (pairRegs r).2 1]
  | .wrbig r n => (List.finRange 64).map (fun k => .write (offsetOf (.big r k)) (BitVec.ofNat 32 (n >>> (32 * k.val))))
  | .rdbig r => (List.finRange 64).map (fun k => readTurn c (.big r k) k)
  | .clrdone => [.write (offsetOf .status) 0x00000002]
  | .chkok => [readTurn c .err 0]

/-- The moves of an item. -/
def RunItem.turns : RunItem → List Turn
  | .op o c => o.turns c
  | .coreStep drawn => [.core drawn]

/-- A run of a host program as the moves it makes. The operations give the host's accesses in program order; the core's
steps stand inside the poll loops and wherever an item places one, so that both orders of a command and a later access
are runs of one program (DESIGN CHOICE, log entry 14). -/
def programTurns (items : List RunItem) : List Turn :=
  items.flatMap RunItem.turns

/-- The number the host makes of the words an operation's reads returned, in order (R68: `rd64`, `rdbig`); the word itself
for `rd` and `chkok`. -/
def HostOp.value (op : HostOp) (ws : List Word) : Nat :=
  match op with
  | .rd64 _ => ws.foldl (fun acc w => acc * 2 ^ 32 + w.toNat) 0
  | .rd _ | .chkok | .rdbig _ => ws.foldr (fun w acc => w.toNat + acc * 2 ^ 32) 0
  | .wr _ _ | .cmd _ | .cmdWord _ | .wait | .run _ | .wr64 _ _ | .wrbig _ _ | .clrdone => 0

/-- What `chkok` requires of the ERR it reads (R68). -/
def chkokHolds (ws : List Word) : Bool :=
  HostOp.chkok.value ws == 0

/-- A token of the notation: a name, or a number in hexadecimal or decimal (R67). -/
inductive Token where
  | name (s : String)
  | num (n : Nat)
  deriving DecidableEq, Repr

/-- The command names without an argument (R67: all others). -/
def plainCommands : List (String × Instr) :=
  [("NOP", .nop), ("KEY_FROM_DH", .keyFromDh), ("BLOCK_ENC", .blockEnc), ("BLOCK_DEC", .blockDec),
   ("CBC_ENC_INIT", .cbcEncInit), ("CBC_ENC_BLOCK", .cbcEncBlock), ("CBC_DEC_INIT", .cbcDecInit),
   ("CBC_DEC_BLOCK", .cbcDecBlock)] ++
  [("CBC_DEC_FINAL", .cbcDecFinal), ("CBC_ABORT", .cbcAbort), ("DH_SHARED", .dhShared), ("DH_CLEAR", .dhClear),
   ("MODEXP", .modexp), ("SOFT_RESET", .softReset)]

/-- The table names of `PERMUTE` (R67). -/
def tableNames : List (String × BitVec 4) :=
  [("IP", 0), ("FP", 1), ("PC1", 2), ("PC2", 3), ("E", 4), ("P", 5)]

/-- An argument counted from `base` and below `base + count`, as an ARG field (R67: r − 1, box − 1). -/
def argOf (base count n : Nat) : Option (BitVec 4) :=
  if base ≤ n ∧ n < base + count then some (BitVec.ofNat 4 (n - base)) else none

/-- `<MNEMONIC> [<arg>]` (R67). -/
def readCommand (ts : List Token) : Option Instr :=
  match ts with
  | [.name s] =>
    if s = "DH_INIT" then some (.dhInit 0) else (plainCommands.find? (fun r => r.1 == s)).map (fun r => r.2)
  | [.name s, .num n] =>
    if s = "KEY_LOAD" then (argOf 0 16 n).map .keyLoad
    else if s = "SUBKEY_READ" then (argOf 1 16 n).map .subkeyRead
    else if s = "SBOX" then (argOf 1 8 n).map .sbox
    else if s = "ROUND_F" then (argOf 1 16 n).map .roundF
    else if s = "CBC_ENC_FINAL" then (argOf 0 8 n).map .cbcEncFinal
    else none
  | [.name s, .name a] =>
    if s = "PERMUTE" then (tableNames.find? (fun r => r.1 == a)).map (fun r => .permute r.2)
    else if s = "DH_INIT" ∧ a = "DEF" then some (.dhInit 1)
    else none
  | _ => none

/-- The names of the 32-bit registers (R67). -/
def registerNames : List (String × WinReg) :=
  [("ID", .id), ("CTRL", .ctrl), ("STATUS", .status), ("ERR", .err), ("CMD", .cmd), ("RESULT", .result),
   ("KEY0", .key0), ("KEY1", .key1)] ++
  [("DIN0", .din0), ("DIN1", .din1), ("DOUT0", .dout0), ("DOUT1", .dout1), ("CHAIN0", .chain0), ("CHAIN1", .chain1),
   ("DHKEY0", .dhkey0), ("DHKEY1", .dhkey1)]

/-- The names of the big-number registers (R67). -/
def bigNames : List (String × BigReg) :=
  [("P", .p), ("G", .g), ("PUB", .pub), ("PEER", .peer), ("MX", .mx), ("ME", .me), ("MM", .mm), ("MR", .mr)]

/-- The names of the register pairs (R68). -/
def pairNames : List (String × PairReg) :=
  [("KEY", .key), ("DIN", .din), ("DOUT", .dout), ("CHAIN", .chain), ("DHKEY", .dhkey)]

/-- What a name stands for in a list of names. -/
def lookupName {α : Type} (names : List (String × α)) (s : String) : Option α :=
  (names.find? (fun r => r.1 == s)).map (fun r => r.2)

/-- `P[k]` with 0 ≤ k ≤ 63 (R67). -/
def bigWordNamed (s : String) (k : Nat) : Option WinReg :=
  (lookupName bigNames s).bind (fun r => if h : k < 64 then some (.big r ⟨k, h⟩) else none)

/-- An operation from its tokens, the marks `,` `->` `[` `]` left out (R67, R68). The name after `->` is the host's own and is
dropped. -/
def readOp (ts : List Token) : Option HostOp :=
  match ts with
  | [.name "wait"] => some .wait
  | [.name "clrdone"] => some .clrdone
  | [.name "chkok"] => some .chkok
  | [.name "cmd", .num w] => if w < 2 ^ 32 then some (.cmdWord (BitVec.ofNat 32 w)) else none
  | .name "cmd" :: rest => (readCommand rest).map .cmd
  | .name "run" :: rest => (readCommand rest).map .run
  | [.name "wr", .name r, .num v] =>
    if v < 2 ^ 32 then (lookupName registerNames r).map (fun r => .wr r (BitVec.ofNat 32 v)) else none
  | [.name "wr", .name r, .num k, .num v] =>
    if v < 2 ^ 32 then (bigWordNamed r k).map (fun r => .wr r (BitVec.ofNat 32 v)) else none
  | [.name "rd", .name r, .name _] => (lookupName registerNames r).map .rd
  | [.name "rd", .name r, .num k, .name _] => (bigWordNamed r k).map .rd
  | [.name "wr64", .name r, .num v] =>
    if v < 2 ^ 64 then (lookupName pairNames r).map (fun r => .wr64 r (BitVec.ofNat 64 v)) else none
  | [.name "rd64", .name r, .name _] => (lookupName pairNames r).map .rd64
  | [.name "wrbig", .name r, .num n] => (lookupName bigNames r).map (fun r => .wrbig r n)
  | [.name "rdbig", .name r, .name _] => (lookupName bigNames r).map .rdbig
  | _ => none

end Sys2Proof.Machine
end

