-- ==== Sys2Proof/Machine/Payload.lean ====
section
/-! DEFINITION. The source's whole-payload functions (spec/43_cbc.md rules R106–R109), which the streaming commands of
Machine/Cbc.lean correspond to (R110). Blocks are counted from 0 here. -/

namespace Sys2Proof.Machine

/-- `pad(m)` (R106). -/
def padMessage (m : List Byte) : List Byte :=
  let len := 8 - m.length % 8
  m ++ List.replicate len (BitVec.ofNat 8 len)

/-- `unpad(q)` (R107), `none` for FAIL. -/
def unpadMessage (q : List Byte) : Option (List Byte) :=
  let last := q.getD (q.length - 1) 0
  let kept := q.length - last.toNat
  if last.toNat = 0 ∨ last.toNat > 8 then none
  else if (q.drop kept).all (fun b => b == last) then some (q.take kept) else none

/-- Block `t` of a byte sequence: its bytes 8t..8t+7 (R108, R109). -/
def blockAt (q : List Byte) (t : Nat) : Block :=
  blockOfBytes (q.drop (8 * t))

/-- The whole 8-byte blocks of a byte sequence, in order. -/
def blocksOf (q : List Byte) : List Block :=
  (List.range (q.length / 8)).map (blockAt q)

/-- The loop of `cbc_encrypt` (R108). -/
def cbcEncryptBlocks (sk : Vector Subkey 16) : List Block → Block → List Block
  | [], _ => []
  | q :: qs, prev =>
    let c := desBlock sk true (q ^^^ prev)
    c :: cbcEncryptBlocks sk qs c

/-- The loop of `cbc_decrypt` (R109). -/
def cbcDecryptBlocks (sk : Vector Subkey 16) : List Block → Block → List Block
  | [], _ => []
  | c :: cs, prev => (desBlock sk false c ^^^ prev) :: cbcDecryptBlocks sk cs c

/-- `cbc_encrypt(m, iv)` under a subkey file (R108). -/
def cbcEncrypt (sk : Vector Subkey 16) (m : List Byte) (iv : Block) : List Byte :=
  (iv :: cbcEncryptBlocks sk (blocksOf (padMessage m)) iv).flatMap bytesOf

/-- `cbc_decrypt(x)` under a subkey file (R109), `none` for FAIL. -/
def cbcDecrypt (sk : Vector Subkey 16) (x : List Byte) : Option (List Byte) :=
  if x.length < 16 ∨ (x.length - 8) % 8 ≠ 0 then none
  else unpadMessage ((cbcDecryptBlocks sk (blocksOf (x.drop 8)) (blockOfBytes x)).flatMap bytesOf)

end Sys2Proof.Machine
end

