-- ==== Sys2Proof/Safety.lean ====
section
/-! DEFINITION. The terms that claims about CSCORE use: its state invariants (spec/10_state.md rule R38), the end of a run
(spec/70_reset_and_hazards.md rule R166), what the host can see (spec/60_exceptions.md rule R146), and the state with its
trace left out (R151). -/

namespace Sys2Proof.Machine

/-- The invariants every rule preserves (R38), with the range of RESULT.NBYTES (R24) and the subkey file's value while no
key is loaded (R32). Invariant 5 of R38 holds by the way STATUS is computed, and 6 is about a step, not a state. -/
structure State.Inv (s : State) : Prop where
  /-- R38, 1 -/
  mode_needs_key : s.mode ≠ .idle → s.keyValid = true
  /-- R38, 2 -/
  shared_needs_keyed : s.dhkeyValid = true → s.dhKeyed = true
  /-- R38, 3 -/
  unkeyed_is_clear : s.dhKeyed = false → s.priv = 0 ∧ s.ssec = 0 ∧ s.pub = 0 ∧ s.dhkey = 0
  /-- R38, 4 -/
  keyed_range : s.dhKeyed = true → 4 ≤ s.psess.toNat ∧ 2 ≤ s.priv.toNat ∧ s.priv.toNat ≤ s.psess.toNat - 2
  /-- R24 -/
  nbytes_range : s.nbytes.toNat ≤ 7
  /-- R32 -/
  keyless_subkeys : s.keyValid = false → s.sk = Vector.replicate 16 0

/-- A run's end (R166): the host has made its last access and no command is pending. -/
def State.ended (s : State) : Prop :=
  s.schedule = [] ∧ s.busy = false

/-- The state with its confidential elements PRIV, SSEC and PSESS blanked (R35, R146), and with them the free input of the
core step made last, from which PRIV may have come (log entry 1). -/
def State.withoutSecrets (s : State) : State :=
  { s with priv := 0, ssec := 0, psess := 0, draw := default }

/-- The state with the trace output and its latch left out (R151). -/
def State.untraced (s : State) : State :=
  { s with trace := [], ptrace := false }

/-- The commands whose check needs a loaded key (R136, NO_KEY). -/
def needsKey : Instr → Bool
  | .subkeyRead _ | .roundF _ | .blockEnc | .blockDec | .cbcEncInit | .cbcEncBlock | .cbcEncFinal _ | .cbcDecInit
  | .cbcDecBlock | .cbcDecFinal => true
  | .nop | .keyLoad _ | .keyFromDh | .permute _ | .sbox _ | .cbcAbort | .dhInit _ | .dhShared | .dhClear | .modexp
  | .softReset => false

/-- The chain mode a command must find, where R111 refuses it in any other. -/
def neededMode : Instr → Option ChainMode
  | .keyLoad _ | .keyFromDh | .cbcEncInit | .cbcDecInit => some .idle
  | .cbcEncBlock | .cbcEncFinal _ => some .enc
  | .cbcDecBlock | .cbcDecFinal => some .dec
  | .nop | .subkeyRead _ | .permute _ | .sbox _ | .roundF _ | .blockEnc | .blockDec | .cbcAbort | .dhInit _ | .dhShared
  | .dhClear | .modexp | .softReset => none

/-- The core moves next, with the free input `d` (R8), and `rest` is what is scheduled after it: a `core` move stands first,
or nothing is scheduled and the pending command's turn has come (R53, R164). -/
def State.coreNext (s : State) (d : Draw) (rest : List Turn) : Prop :=
  s.schedule = .core d :: rest ∨ (s.schedule = [] ∧ rest = [] ∧ d = s.lastDraw)

/-- The step is the execution of command `i`: its word is pending and the core moves next (R36). -/
def State.executes (s : State) (i : Instr) : Prop :=
  s.busy = true ∧ decode s.pend = .ok i ∧ ∃ d rest, s.coreNext d rest

/-- The trace output after events `evs` are emitted: they are appended if PTRACE = 1 (R150). -/
def State.traceWith (s : State) (evs : List TraceEvent) : List TraceEvent :=
  if s.ptrace then s.trace ++ evs else s.trace

/-- The 21 opcodes of R63. -/
def legalOpcodes : List (BitVec 8) :=
  [0x00, 0x01, 0x02, 0x03, 0x08, 0x09, 0x0A, 0x10, 0x11, 0x20, 0x21, 0x22, 0x24, 0x25, 0x26, 0x27, 0x30, 0x31, 0x32, 0x38,
    0x3F]

/-- The legal ARG values of a legal opcode (R61). -/
def legalArg (op : BitVec 8) (arg : BitVec 4) : Prop :=
  if op = 0x01 ∨ op = 0x03 ∨ op = 0x0A then True
  else if op = 0x08 then arg.toNat ≤ 5
  else if op = 0x09 ∨ op = 0x22 then arg.toNat ≤ 7
  else if op = 0x30 then arg.toNat ≤ 1
  else arg = 0

/-- MODE's number (R33). -/
def modeNat : ChainMode → Nat
  | .idle => 0
  | .enc => 1
  | .dec => 2

/-- The code of an error (R136). -/
def errNat : ErrCode → Nat
  | .ok => 0
  | .illegal => 1
  | .badArg => 2
  | .noKey => 3
  | .seq => 4
  | .pad => 5
  | .dhParam => 6
  | .dhState => 7
  | .modZero => 8

/-- STATUS as a number, field by field at the bit places of R21. -/
def statusNat (s : State) : Nat :=
  s.busy.toNat + 2 * s.done.toNat + 4 * (if errNat s.err = 0 then 0 else 1) + 8 * s.keyValid.toNat
    + 16 * modeNat s.mode + 64 * s.dhKeyed.toNat + 128 * s.dhkeyValid.toNat + 256 * s.busyViol.toNat

/-- Word `k` of a big number (R47). -/
def wordOfBig (x : Big) (k : Nat) : Nat :=
  x.toNat / 2 ^ (32 * k) % 2 ^ 32

/-- The value at a byte offset of the window while BUSY = 0, read off the register map of R43. -/
def windowNat (s : State) (off : Nat) : Nat :=
  if off = 0x000 then 0x43530007
  else if off = 0x004 then s.irqEn.toNat + 2 * s.traceEn.toNat
  else if off = 0x008 then statusNat s
  else if off = 0x00C then errNat s.err
  else if off = 0x010 then s.cmd.toNat
  else if off = 0x018 then s.nbytes.toNat
  else if off = 0x020 then s.key.toNat / 2 ^ 32
  else if off = 0x024 then s.key.toNat % 2 ^ 32
  else if off = 0x030 then s.din.toNat / 2 ^ 32
  else if off = 0x034 then s.din.toNat % 2 ^ 32
  else if off = 0x038 then s.dout.toNat / 2 ^ 32
  else if off = 0x03C then s.dout.toNat % 2 ^ 32
  else if off = 0x040 then s.chain.toNat / 2 ^ 32
  else if off = 0x044 then s.chain.toNat % 2 ^ 32
  else if off = 0x050 then s.dhkey.toNat / 2 ^ 32
  else if off = 0x054 then s.dhkey.toNat % 2 ^ 32
  else if 0x100 ≤ off ∧ off ≤ 0x1FC then wordOfBig s.p ((off - 0x100) / 4)
  else if 0x200 ≤ off ∧ off ≤ 0x2FC then wordOfBig s.g ((off - 0x200) / 4)
  else if 0x300 ≤ off ∧ off ≤ 0x3FC then wordOfBig s.pub ((off - 0x300) / 4)
  else if 0x400 ≤ off ∧ off ≤ 0x4FC then wordOfBig s.peer ((off - 0x400) / 4)
  else if 0x500 ≤ off ∧ off ≤ 0x5FC then wordOfBig s.mx ((off - 0x500) / 4)
  else if 0x600 ≤ off ∧ off ≤ 0x6FC then wordOfBig s.me ((off - 0x600) / 4)
  else if 0x700 ≤ off ∧ off ≤ 0x7FC then wordOfBig s.mm ((off - 0x700) / 4)
  else if 0x800 ≤ off ∧ off ≤ 0x8FC then wordOfBig s.mr ((off - 0x800) / 4)
  else 0

/-- The byte offsets of the registers that hold what the host writes: KEY, DIN, P, G, PEER, MX, ME and MM (R43: RW). -/
def holdsWrites (off : Nat) : Prop :=
  off = 0x020 ∨ off = 0x024 ∨ off = 0x030 ∨ off = 0x034 ∨ (0x100 ≤ off ∧ off ≤ 0x2FC) ∨ (0x400 ≤ off ∧ off ≤ 0x7FC)

/-- The state with every register that holds the host's writes blanked. -/
def State.withoutInputs (s : State) : State :=
  { s with key := 0, din := 0, p := 0, g := 0, peer := 0, mx := 0, me := 0, mm := 0 }

/-- Every element of CSCORE's state but the delivered trace is at its reset value, STATUS.DONE apart (R39). -/
def State.atReset (t : State) : Prop :=
  t.irqEn = false ∧ t.traceEn = false ∧ t.busy = false ∧ t.busyViol = false ∧ t.err = .ok ∧ t.cmd = 0 ∧ t.nbytes = 0 ∧
  t.key = 0 ∧ t.din = 0 ∧ t.dout = 0 ∧ t.chain = 0 ∧ t.dhkey = 0 ∧
  t.p = 0 ∧ t.g = 0 ∧ t.pub = 0 ∧ t.peer = 0 ∧ t.mx = 0 ∧ t.me = 0 ∧ t.mm = 0 ∧ t.mr = 0 ∧
  (∀ r, (h : r < 16) → t.sk[r] = 0) ∧ t.keyValid = false ∧ t.mode = .idle ∧ t.dhKeyed = false ∧ t.dhkeyValid = false ∧
  t.priv = 0 ∧ t.ssec = 0 ∧ t.psess = 0 ∧ t.pend = 0 ∧ t.ptrace = false

/-- `o` is table `T` applied to `s` (R14, R87): bit for bit, positions counted from 0 and the most significant first. -/
def SelectsBits {n m : Nat} (T : List Nat) (s : BitVec n) (o : BitVec m) : Prop :=
  T.length = m ∧ ∀ j < m, o.getMsbD j = s.getMsbD (T.getD j 0 - 1)

/-- `sk` is the key schedule of the normalised key `nk` (R92): C and D are its halves round by round. -/
def IsSchedule (nk : Block) (sk : Vector Subkey 16) : Prop :=
  ∃ C D : Nat → KsHalf, SelectsBits pc1Table nk (C 0 ++ D 0 : BitVec 56) ∧
    ∀ r < 16, C (r + 1) = (C r).rotateLeft (shiftTable.getD r 0) ∧ D (r + 1) = (D r).rotateLeft (shiftTable.getD r 0) ∧
      SelectsBits pc2Table (C (r + 1) ++ D (r + 1) : BitVec 56) (sk.toList.getD r 0)

/-- The entry of S-box `i` (counted from 0) for the 6-bit number `g`: row 2·g[5] + g[0], column g[4:1] (R98). -/
def sboxEntry (i g : Nat) : Nat :=
  ((sboxTables.getD i []).getD (2 * (g / 32) + g % 2) []).getD (g / 2 % 16) 0

/-- `x`, `o` and `f` are the expansion, the S-box output and the result of F(R, K) (R99): group i of x ⊕ K, counted from
0, is its bits 47−6i down to 42−6i, and gives bits 31−4i down to 28−4i of o. -/
def IsRound (r : Half) (k : Subkey) (x : Subkey) (o f : Half) : Prop :=
  SelectsBits eTable r x ∧
  (∀ i < 8, o.toNat / 2 ^ (28 - 4 * i) % 16 = sboxEntry i ((x ^^^ k).toNat / 2 ^ (42 - 6 * i) % 64)) ∧
  SelectsBits pTable o f

/-- `c` is the result of `des_block(b, enc)` under SK and `evs` its ROUND events (R100): L and R are the halves after each
round. -/
def IsBlock (sk : Vector Subkey 16) (enc : Bool) (b c : Block) (evs : List TraceEvent) : Prop :=
  ∃ (L R : Nat → Half) (x : Nat → Subkey) (o f : Nat → Half),
    SelectsBits ipTable b (L 0 ++ R 0 : Block) ∧
    (∀ i < 16, IsRound (R i) (sk.toList.getD (if enc then i else 15 - i) 0) (x i) (o i) (f i) ∧
      L (i + 1) = R i ∧ R (i + 1) = L i ^^^ f i) ∧
    SelectsBits fpTable (R 16 ++ L 16 : Block) c ∧
    evs = (List.range 16).map (fun i => .round (i + 1) (x i) (o i) (f i))

/-- Byte `k` of a block as a number (R46). -/
def byteNat (x : Block) (k : Nat) : Nat :=
  x.toNat / 2 ^ (56 - 8 * k) % 256

/-- The padding of a last block is valid with length `byteNat p 7` (R107). -/
def PaddingValid (p : Block) : Prop :=
  1 ≤ byteNat p 7 ∧ byteNat p 7 ≤ 8 ∧ ∀ k < 8, 8 - byteNat p 7 ≤ k → byteNat p k = byteNat p 7

/-- PERMUTE's table for a legal id (R89). -/
def permuteTable : Nat → List Nat
  | 0 => ipTable
  | 1 => fpTable
  | 2 => pc1Table
  | 3 => pc2Table
  | 4 => eTable
  | _ => pTable

/-- The codes other than OK that R140 lists for a well-formed command. -/
def reportable : Instr → List ErrCode
  | .nop | .permute _ | .sbox _ | .cbcAbort | .dhClear | .softReset => []
  | .keyLoad _ => [.seq]
  | .keyFromDh => [.seq, .dhState]
  | .subkeyRead _ | .roundF _ | .blockEnc | .blockDec => [.noKey]
  | .cbcEncInit | .cbcDecInit | .cbcEncBlock | .cbcEncFinal _ | .cbcDecBlock => [.noKey, .seq]
  | .cbcDecFinal => [.noKey, .seq, .pad]
  | .dhInit _ => [.dhParam]
  | .dhShared => [.dhState]
  | .modexp => [.modZero]

/-- The chain mode R111's table gives a command that is not refused for BAD_ARG or NO_KEY. -/
def modeAfter (i : Instr) (m : ChainMode) : ChainMode :=
  match i with
  | .cbcEncInit => if m = .idle then .enc else m
  | .cbcDecInit => if m = .idle then .dec else m
  | .cbcEncFinal _ => if m = .enc then .idle else m
  | .cbcDecFinal => if m = .dec then .idle else m
  | .cbcAbort | .softReset => .idle
  | .nop | .keyLoad _ | .keyFromDh | .subkeyRead _ | .permute _ | .sbox _ | .roundF _ | .blockEnc | .blockDec
  | .cbcEncBlock | .cbcDecBlock | .dhInit _ | .dhShared | .dhClear | .modexp => m

/-- A stream of full blocks through one command: the outputs it leaves in DOUT, in order, and the state
after it. Each block is put in DIN and the command executed to its completion (R110, R119). -/
def streamBlocks (i : Instr) : List Block → State → List Block × State
  | [], s => ([], s)
  | b :: bs, s =>
    match exec i { s with din := b } with
    | .next t => (t.dout :: (streamBlocks i bs t).1, (streamBlocks i bs t).2)
    | .fault _ => ([], s)
    | .refused _ => ([], s)

end Sys2Proof.Machine
end

