-- ==== Sys2Proof/Certificates/Slice0/Obligations.lean ====
section
/-! DEFINITION. The statements for the provers. Each docstring names the rules of spec/ its statement formalises. The terms
used are those of Safety.lean. Where a statement speaks of `schedule` and `coreNext` (whose move a step is), of `busReads`
(what a read returned) or of `draw` (the free input of a core step), these are the model's own fields, its design choices
of log entries 2, 3 and 1. -/

open Sys2Proof Sys2Proof.Machine

/-! ### Command words -/

/-- R67 and 95_test_vectors.md: words of every family decode to the commands they stand for. -/
def Obligations.SpecWordsDecode : Prop :=
  decode 0x00000000 = .ok .nop ∧ decode 0x00000801 = .ok (.keyLoad 8) ∧ decode 0x00000002 = .ok .keyFromDh ∧
  decode 0x00000F03 = .ok (.subkeyRead 15) ∧ decode 0x00000308 = .ok (.permute 3) ∧ decode 0x00000009 = .ok (.sbox 0) ∧
  decode 0x00000010 = .ok .blockEnc ∧ decode 0x00000222 = .ok (.cbcEncFinal 2) ∧ decode 0x00000026 = .ok .cbcDecFinal ∧
  decode 0x00000130 = .ok (.dhInit 1) ∧ decode 0x00000038 = .ok .modexp ∧ decode 0x0000003F = .ok .softReset ∧
  decode 0x00001004 = .error .illegal ∧ decode 0x00001010 = .error .badArg ∧ decode 0x00000608 = .error .badArg

/-- R60, R61, R63: the word of a well-formed command decodes to that command, with every argument. -/
def Obligations.DecodeInvertsEncode : Prop :=
  ∀ i : Instr, i.wellFormed = true → decode (encode i) = .ok i

/-- R60, R61, R63: a word that decodes to a command is that command's word, and the command is well-formed: no two words
stand for one command. -/
def Obligations.DecodedWordIsTheEncoding : Prop :=
  ∀ (w : Word) (i : Instr), decode w = .ok i → i.wellFormed = true ∧ encode i = w

/-- R64: a word whose OP is none of the 21 opcodes, whatever its other bits, completes with ILLEGAL (0x01) and changes
nothing else; and those OP values are the ones R64 lists. Whose move it is, and that the core moves when nothing is
scheduled, is the model's (log entry 2). -/
def Obligations.IllegalOpcodeOnlyCompletes : Prop :=
  ErrCode.illegal.code = 0x01 ∧
  (∀ (s : State) (d : Draw) (rest : List Turn), s.busy = true → s.coreNext d rest → opField s.pend ∉ legalOpcodes →
    step s = .next { s with schedule := rest, err := .illegal, done := true, busy := false }) ∧
  (∀ n < 256, BitVec.ofNat 8 n ∉ legalOpcodes ↔
    (0x04 ≤ n ∧ n ≤ 0x07) ∨ (0x0B ≤ n ∧ n ≤ 0x0F) ∨ (0x12 ≤ n ∧ n ≤ 0x1F) ∨ n = 0x23 ∨ (0x28 ≤ n ∧ n ≤ 0x2F) ∨
      (0x33 ≤ n ∧ n ≤ 0x37) ∨ (0x39 ≤ n ∧ n ≤ 0x3E) ∨ (0x40 ≤ n ∧ n ≤ 0xFF))

/-- R65: a legal OP with RSV ≠ 0 or an ARG outside its legal set completes with BAD_ARG (0x02) and no other effect;
otherwise the command goes on to its own checks, that is, it is executed. Whose move it is, and that the core moves when
nothing is scheduled, is the model's (log entry 2). -/
def Obligations.MalformedWordOnlyCompletes : Prop :=
  ErrCode.badArg.code = 0x02 ∧
  ∀ (s : State) (d : Draw) (rest : List Turn), s.busy = true → s.coreNext d rest → opField s.pend ∈ legalOpcodes →
    ((rsvField s.pend ≠ 0 ∨ ¬ legalArg (opField s.pend) (argField s.pend)) →
      step s = .next { s with schedule := rest, err := .badArg, done := true, busy := false }) ∧
    (rsvField s.pend = 0 → legalArg (opField s.pend) (argField s.pend) →
      ∃ i, i.op = opField s.pend ∧ i.arg = argField s.pend ∧ step s = exec i { s with schedule := rest, draw := d })

/-! ### Steps -/

/-- R36, R69, R8: the core's step runs the command the pending word decodes to, on the state at that moment and with the
step's own free input `d` (whose move it is and where the free input stands: log entries 2 and 1). -/
def Obligations.StepRunsPendingCommand : Prop :=
  ∀ (s : State) (d : Draw) (rest : List Turn) (i : Instr), s.busy = true → s.coreNext d rest → decode s.pend = .ok i →
    step s = exec i { s with schedule := rest, draw := d }

/-- R18, R38 (6), R152: with BUSY = 0 the core executes nothing: its move leaves all state as it is (whose move it
is: log entry 2). -/
def Obligations.IdleCoreKeepsState : Prop :=
  ∀ (s : State) (d : Draw) (rest : List Turn), s.busy = false → s.coreNext d rest →
    step s = .next { s with schedule := rest }

/-- R69, R137: the core's step on an issued word, legal or not, is its one completion: BUSY falls, DONE is set, and the
interrupt follows CTRL.IRQ_EN (whose move it is: log entry 2). -/
def Obligations.IssuedWordCompletes : Prop :=
  ∀ (s : State) (d : Draw) (rest : List Turn), s.busy = true → s.coreNext d rest →
    ∃ t, step s = .next t ∧ t.busy = false ∧ t.done = true ∧ t.schedule = rest ∧ irq t = t.irqEn

/-- R164, R166: every run ends: after all scheduled moves and one more step, no command is pending; and an ended state
stays (that the core moves when nothing is scheduled: log entry 2). -/
def Obligations.EveryRunEnds : Prop :=
  (∀ s : State, ∃ t, core.run (s.schedule.length + 1) s = .next t ∧ t.ended) ∧
  (∀ s : State, s.ended → step s = .next s)

/-! ### The host's bus -/

/-- R43–R48: while BUSY = 0 a host read returns the current value of what the register map has at the offset (0 where it
has nothing) and has no side effect (where the value is recorded: log entry 3). -/
def Obligations.IdleReadFollowsRegisterMap : Prop :=
  ∀ (s : State) (off : WordOff) (d : Word) (rest : List Turn), s.busy = false → s.schedule = .read off d :: rest →
    step s = .next { s with
      schedule := rest, busReads := s.busReads ++ [BitVec.ofNat 32 (windowNat s (4 * off.val))] }

/-- R23: an idle CMD write issues the word; a CMD write while BUSY is dropped and sets BUSY_VIOL; a read of CMD returns the
last word issued, including while BUSY; CMD is 0 after reset (where a read value is recorded: log entry 3). -/
def Obligations.CmdWriteIssues : Prop :=
  (∀ (s : State) (w : Word) (rest : List Turn), s.busy = false → s.schedule = .write (wordOff 0x010) w :: rest →
    step s = .next { s with schedule := rest, cmd := w, pend := w, ptrace := s.traceEn, busy := true }) ∧
  (∀ (s : State) (w : Word) (rest : List Turn), s.busy = true → s.schedule = .write (wordOff 0x010) w :: rest →
    step s = .next { s with schedule := rest, busyViol := true }) ∧
  (∀ (s : State) (d : Word) (rest : List Turn), s.schedule = .read (wordOff 0x010) d :: rest →
    step s = .next { s with schedule := rest, busReads := s.busReads ++ [s.cmd] }) ∧
  State.reset.cmd = 0

/-- R25, R26, R30, R44, R47: while BUSY = 0 a write to KEY, DIN, P, G, PEER, MX, ME or MM replaces that one word: it reads
back, every other offset reads as before, and nothing else changes. -/
def Obligations.InputWriteReplacesOneWord : Prop :=
  ∀ (s : State) (off : WordOff) (v : Word) (rest : List Turn), s.busy = false → holdsWrites (4 * off.val) →
    s.schedule = .write off v :: rest →
    ∃ t, step s = .next t ∧ t.withoutInputs = { s with schedule := rest }.withoutInputs ∧
      ∀ off' : WordOff, windowNat t (4 * off'.val) = if off' = off then v.toNat else windowNat s (4 * off'.val)

/-- R44, R45: while BUSY = 0 a write to a read-only register or to an unmapped offset is ignored and sets no flag. -/
def Obligations.ReadOnlyWriteIsIgnored : Prop :=
  ∀ (s : State) (off : WordOff) (v : Word) (rest : List Turn), s.busy = false → ¬ holdsWrites (4 * off.val) →
    off.val ≠ 1 → off.val ≠ 2 → off.val ≠ 4 → s.schedule = .write off v :: rest →
    step s = .next { s with schedule := rest }

/-- R20, R21, R44: at any time a write of CTRL stores bits 0 and 1 and ignores the rest, and a write of STATUS clears DONE
(bit 1) and BUSY_VIOL (bit 8) where it writes 1 and ignores every other bit; the interrupt output follows (R142). -/
def Obligations.CtrlAndStatusWrites : Prop :=
  (∀ (s : State) (v : Word) (rest : List Turn), s.schedule = .write (wordOff 0x004) v :: rest →
    ∃ t, step s = .next t ∧
      t = { s with schedule := rest, irqEn := v.getLsbD 0, traceEn := v.getLsbD 1 } ∧
      irq t = (v.getLsbD 0 && s.done)) ∧
  (∀ (s : State) (v : Word) (rest : List Turn), s.schedule = .write (wordOff 0x008) v :: rest →
    ∃ t, step s = .next t ∧
      t = { s with
        schedule := rest
        done := if v.getLsbD 1 then false else s.done
        busyViol := if v.getLsbD 8 then false else s.busyViol } ∧
      irq t = (s.irqEn && s.done && !v.getLsbD 1))

/-- R58: host accesses while BUSY = 1, case by case: reads of ID, CTRL, STATUS and CMD are current, every other read
returns a draw, a free input `d` of the read whatever its value; writes to CTRL and STATUS take effect as when idle, and
every other write is dropped and sets BUSY_VIOL (the draw and the record of reads: log entries 1 and 3). -/
def Obligations.BusyAccesses : Prop :=
  ∀ (s : State) (off : WordOff) (v d : Word) (rest : List Turn), s.busy = true →
    (s.schedule = .read off d :: rest →
      (off.val ∈ [0, 1, 2, 4] → step s = .next { s with
        schedule := rest, busReads := s.busReads ++ [BitVec.ofNat 32 (windowNat s (4 * off.val))] }) ∧
      (off.val ∉ [0, 1, 2, 4] → step s = .next { s with schedule := rest, busReads := s.busReads ++ [d] })) ∧
    (s.schedule = .write off v :: rest →
      (off.val = 1 → step s = .next { s with schedule := rest, irqEn := v.getLsbD 0, traceEn := v.getLsbD 1 }) ∧
      (off.val = 2 → step s = .next { s with
        schedule := rest
        done := if v.getLsbD 1 then false else s.done
        busyViol := if v.getLsbD 8 then false else s.busyViol }) ∧
      (off.val ≠ 1 → off.val ≠ 2 → step s = .next { s with schedule := rest, busyViol := true }))

/-- R46, R68: while BUSY = 0, `wr64` of KEY or DIN followed by `rd64` reads the written value back, high word first
(log entries 2, 3 and 14). -/
def Obligations.PairWriteReadsBack : Prop :=
  ∀ (s : State) (r : PairReg) (x : Block) (c c' : RunChoice), s.busy = false → r = .key ∨ r = .din →
    ∃ (t : State) (hi lo : Word),
      core.run 4 { s with schedule := programTurns [.op (.wr64 r x) c, .op (.rd64 r) c'] } = .next t ∧
      t.busReads = s.busReads ++ [hi, lo] ∧ hi.toNat = x.toNat / 2 ^ 32 ∧ lo.toNat = x.toNat % 2 ^ 32 ∧
      (HostOp.rd64 r).value [hi, lo] = x.toNat

/-! ### Reset -/

/-- R39: the reset value of every piece of state; ID is a constant and the interrupt output is deasserted; and a reset
leaves no piece of state at its old value but the trace events already delivered. -/
def Obligations.ResetValues : Prop :=
  State.reset.atReset ∧ State.reset.done = false ∧ Config.idValue = 0x43530007 ∧ irq State.reset = false ∧
  State.reset.trace = [] ∧
  ∀ s : State, (applyReset s).atReset ∧ (applyReset s).done = false ∧ irq (applyReset s) = false ∧
    (applyReset s).trace = s.trace

/-- R153, R154, R37: asserting reset, at any time, sets every state element to its reset value, abandons a pending command
without a completion, and withdraws no trace event. What is not CSCORE's stays (log entry 12). -/
def Obligations.HardwareResetStep : Prop :=
  ∀ (s : State) (rest : List Turn), s.schedule = .reset :: rest →
    ∃ t, step s = .next t ∧ t.atReset ∧ t.done = false ∧ irq t = false ∧ t.trace = s.trace ∧
      t.schedule = rest ∧ t.draw = s.draw ∧ t.lastDraw = s.lastDraw ∧ t.busReads = s.busReads

/-- R132: SOFT_RESET applies reset and then sets DONE: STATUS is 0x00000002, no interrupt is raised, and the trace port
emits nothing (that the model's own fields stay: log entry 12). -/
def Obligations.SoftResetCompletes : Prop :=
  ∀ s : State, ∃ t, exec .softReset s = .next t ∧ t.atReset ∧ t.done = true ∧ statusWord t = 0x00000002 ∧
    irq t = false ∧ t.trace = s.trace ∧ t.schedule = s.schedule ∧ t.draw = s.draw ∧ t.lastDraw = s.lastDraw ∧
    t.busReads = s.busReads

/-- R155: right after reset ID reads 0x43530007 and every other offset 0; commands needing a key report NO_KEY, DH_SHARED
and KEY_FROM_DH report DH_STATE, and the commands R155 names can run: they report neither, nor SEQ; MODEXP needs MM ≠ 0,
which the host may have written (`draw` is the model's own free input, of any value: log entry 1). -/
def Obligations.StateRightAfterReset : Prop :=
  (∀ off : WordOff, regValue (regAt off) State.reset = if off.val = 0 then 0x43530007 else 0) ∧
  (∀ i : Instr, i.wellFormed = true → needsKey i = true →
    ∃ t, exec i State.reset = .next t ∧ t.err = .noKey) ∧
  (∀ i : Instr, i = .dhShared ∨ i = .keyFromDh → ∃ t, exec i State.reset = .next t ∧ t.err = .dhState) ∧
  (∀ (i : Instr) (s : State), i.wellFormed = true → needsKey i = false → i ≠ .dhShared → i ≠ .keyFromDh →
    { s with draw := State.reset.draw }.withoutInputs = State.reset.withoutInputs → (i = .modexp → s.mm ≠ 0) →
    (∀ d, i = .dhInit d → d = 0 → 4 ≤ s.p.toNat ∧ 2 ≤ s.g.toNat ∧ s.g.toNat < s.p.toNat) →
    ∃ t, exec i s = .next t ∧ t.err = .ok)

/-! ### Errors -/

/-- R136, R139: a command that needs a key reports NO_KEY when none is loaded, before any check of the chain mode, and
changes nothing else. -/
def Obligations.MissingKeyIsReported : Prop :=
  ∀ (i : Instr) (s : State), i.wellFormed = true → needsKey i = true → s.keyValid = false →
    exec i s = .next { s with err := .noKey, done := true, busy := false }

/-- R111, R139: a command in a chain mode that refuses it reports SEQ (after the key check, before the DH state check) and
changes nothing else. -/
def Obligations.WrongChainModeIsRefused : Prop :=
  ∀ (i : Instr) (m : ChainMode) (s : State), i.wellFormed = true → (needsKey i = true → s.keyValid = true) →
    neededMode i = some m → s.mode ≠ m →
    exec i s = .next { s with err := .seq, done := true, busy := false }

/-- R94, R122, R124, R125, R128: DH_STATE, DH_PARAM and MOD_ZERO are reported where the rules say, and nothing else
changes. -/
def Obligations.DhAndModexpChecks : Prop :=
  (∀ s : State, s.dhKeyed = false → exec .dhShared s = .next { s with err := .dhState, done := true, busy := false }) ∧
  (∀ s : State, s.mode = .idle → s.dhkeyValid = false →
    exec .keyFromDh s = .next { s with err := .dhState, done := true, busy := false }) ∧
  (∀ s : State, ¬ (4 ≤ s.p.toNat ∧ 2 ≤ s.g.toNat ∧ s.g.toNat < s.p.toNat) →
    exec (.dhInit 0) s = .next { s with err := .dhParam, done := true, busy := false }) ∧
  (∀ s : State, s.mm = 0 → exec .modexp s = .next { s with err := .modZero, done := true, busy := false })

/-- R65, R90, R102, R114, R124: a command with an illegal argument, handed to the machine as it stands, does what its word
does: it completes with BAD_ARG and changes nothing else (log entry 10). -/
def Obligations.IllegalArgumentIsRefused : Prop :=
  ∀ (i : Instr) (s : State), i.wellFormed = false →
    exec i s = .next { s with err := .badArg, done := true, busy := false }

/-- R138: every code except PAD is precise: a command that ends with one changes nothing but the completion. PAD ends a
CBC_DEC_FINAL and has the effects of R117: DOUT and RESULT.NBYTES are 0, CHAIN is the last cipher block, MODE is IDLE, the
trace events are emitted, and nothing else changes. -/
def Obligations.ErrorsArePrecise : Prop :=
  ∀ (i : Instr) (s t : State), exec i s = .next t → t.err ≠ .ok →
    (t.err ≠ .pad → t = { s with err := t.err, done := true, busy := false }) ∧
    (t.err = .pad → i = .cbcDecFinal ∧
      ∃ (d : Block) (evs : List TraceEvent), IsBlock s.sk false s.din d evs ∧
        t = { s with
          dout := 0
          nbytes := 0
          chain := s.din
          mode := .idle
          trace := s.traceWith
            (evs ++ [.chain .dec s.din (d ^^^ s.chain), .unpad (BitVec.ofNat 8 (byteNat (d ^^^ s.chain) 7)) false])
          err := .pad, done := true, busy := false })

/-- R140: the codes each well-formed command can report. -/
def Obligations.ReportedCodes : Prop :=
  ∀ (i : Instr) (s t : State), i.wellFormed = true → exec i s = .next t → t.err = .ok ∨ t.err ∈ reportable i

/-! ### System, permutation and key commands -/

/-- R131: NOP completes with OK and has no other effect: it clears the error code and sets DONE. -/
def Obligations.NopOnlyCompletes : Prop :=
  ∀ s : State, exec .nop s = .next { s with err := .ok, done := true, busy := false }

/-- R91, R92, R93: KEY_LOAD in chain mode IDLE writes SK[1..16] with the key schedule of the first min(KLEN, 8) bytes of
KEY followed by zero bytes, sets KEY_VALID, emits the SUBKEY events if PTRACE, and changes nothing else. -/
def Obligations.KeyLoadComputesSchedule : Prop :=
  ∀ (klen : BitVec 4) (s : State), s.mode = .idle →
    ∃ (nk : Block) (sk : Vector Subkey 16),
      (∀ k < 8, byteNat nk k = if k < min klen.toNat 8 then byteNat s.key k else 0) ∧ IsSchedule nk sk ∧
      exec (.keyLoad klen) s = .next { s with
        sk := sk
        keyValid := true
        trace := s.traceWith ((List.range 16).map (fun r => .subkey (r + 1) (sk.toList.getD r 0)))
        err := .ok, done := true, busy := false }

/-- R94: KEY_FROM_DH in chain mode IDLE with DHKEY_VALID copies DHKEY to KEY, writes its key schedule to SK, sets KEY_VALID,
emits the SUBKEY events if PTRACE, and changes nothing else. -/
def Obligations.KeyFromDhLoadsDerivedKey : Prop :=
  ∀ s : State, s.mode = .idle → s.dhkeyValid = true →
    ∃ sk : Vector Subkey 16, IsSchedule s.dhkey sk ∧
      exec .keyFromDh s = .next { s with
        key := s.dhkey
        sk := sk
        keyValid := true
        trace := s.traceWith ((List.range 16).map (fun r => .subkey (r + 1) (sk.toList.getD r 0)))
        err := .ok, done := true, busy := false }

/-- R95: SUBKEY_READ puts SK[ARG + 1] in the first 48 positions of DOUT, zeros in the last 16, and changes nothing else. -/
def Obligations.SubkeyReadCopiesSubkey : Prop :=
  ∀ (r1 : BitVec 4) (s : State), s.keyValid = true →
    exec (.subkeyRead r1) s = .next { s with
      dout := BitVec.ofNat 64 ((s.sk.toList.getD r1.toNat 0).toNat * 2 ^ 16)
      err := .ok, done := true, busy := false }

/-- R89, R90: PERMUTE puts the selected table's output in the first positions of DOUT, bit for bit, zeros after them, and
changes nothing else. The source positions are all among the first w_in positions of DIN (R85). -/
def Obligations.PermuteAppliesTable : Prop :=
  ∀ (t : BitVec 4) (s : State), t.toNat ≤ 5 →
    ∃ o : Block, exec (.permute t) s = .next { s with dout := o, err := .ok, done := true, busy := false } ∧
      ∀ j < 64, o.getMsbD j =
        (decide (j < (permuteTable t.toNat).length) && s.din.getMsbD ((permuteTable t.toNat).getD j 0 - 1))

/-- R97: PC1 reads no parity position, and two keys that differ only in bit 0 of each byte load the same subkeys, for every
key length, and so give the same ciphertext. -/
def Obligations.ParityBitsDoNotMatter : Prop :=
  (∀ j ∈ pc1Table, j % 8 ≠ 0) ∧
  ∀ (klen : BitVec 4) (s : State) (key' : Block), s.mode = .idle →
    (∀ k < 8, byteNat s.key k / 2 = byteNat key' k / 2) →
    ∃ t t', exec (.keyLoad klen) s = .next t ∧ exec (.keyLoad klen) { s with key := key' } = .next t' ∧
      t.sk = t'.sk ∧ ∀ b : Block, ∃ u u', exec .blockEnc { t with din := b } = .next u ∧
        exec .blockEnc { t' with din := b } = .next u' ∧ u.dout = u'.dout

/-! ### Block cipher commands -/

/-- R98, R102: SBOX puts the entry of S-box ARG + 1 for DIN0[5:0] in DOUT0, 0 in DOUT1, and changes nothing else. -/
def Obligations.SboxLooksUpEntry : Prop :=
  ∀ (b1 : BitVec 4) (s : State), b1.toNat ≤ 7 →
    exec (.sbox b1) s = .next { s with
      dout := BitVec.ofNat 64 (sboxEntry b1.toNat (s.din.toNat / 2 ^ 32 % 64) * 2 ^ 32)
      err := .ok, done := true, busy := false }

/-- R99, R103: ROUND_F puts F(DIN0, SK[ARG + 1]) in DOUT0, 0 in DOUT1, emits one ROUND event if PTRACE, and changes
nothing else. -/
def Obligations.RoundFEvaluatesF : Prop :=
  ∀ (r1 : BitVec 4) (s : State), s.keyValid = true →
    ∃ (x : Subkey) (o f : Half),
      IsRound (BitVec.ofNat 32 (s.din.toNat / 2 ^ 32)) (s.sk.toList.getD r1.toNat 0) x o f ∧
      exec (.roundF r1) s = .next { s with
        dout := (f ++ (0 : Word) : Block)
        trace := s.traceWith [.round (r1.toNat + 1) x o f]
        err := .ok, done := true, busy := false }

/-- R100, R104, R105: BLOCK_ENC and BLOCK_DEC put the 16-round result of DIN in DOUT, with the subkeys forward or in
reverse, emit the 16 ROUND events if PTRACE, and change nothing else: CHAIN and MODE are not touched. -/
def Obligations.BlockCommandsRunSixteenRounds : Prop :=
  ∀ s : State, s.keyValid = true →
    (∃ (c : Block) (evs : List TraceEvent), IsBlock s.sk true s.din c evs ∧
      exec .blockEnc s = .next { s with
        dout := c, trace := s.traceWith evs, err := .ok, done := true, busy := false }) ∧
    (∃ (p : Block) (evs : List TraceEvent), IsBlock s.sk false s.din p evs ∧
      exec .blockDec s = .next { s with
        dout := p, trace := s.traceWith evs, err := .ok, done := true, busy := false })

/-- R101: decrypting what was encrypted gives the block back, and the other way round, for every block and every subkey
file. -/
def Obligations.BlockRoundTrip : Prop :=
  ∀ s : State, s.keyValid = true →
    (∃ t u, exec .blockEnc s = .next t ∧ exec .blockDec { t with din := t.dout } = .next u ∧ u.dout = s.din) ∧
    (∃ t u, exec .blockDec s = .next t ∧ exec .blockEnc { t with din := t.dout } = .next u ∧ u.dout = s.din)

/-! ### CBC commands -/

/-- R8, R112: CBC_ENC_INIT with a key and in chain mode IDLE puts one drawn value, the IV, in CHAIN and DOUT, sets MODE to
ENC, and changes nothing else; the IV is the step's free input, any 64-bit value (where the free input stands: log entry
1). -/
def Obligations.CbcEncInitDrawsIv : Prop :=
  ∀ (s : State) (iv : Block), s.keyValid = true → s.mode = .idle → s.draw.iv = iv →
    exec .cbcEncInit s = .next { s with
      chain := iv, dout := iv, mode := .enc, err := .ok, done := true, busy := false }

/-- R113: CBC_ENC_BLOCK in chain mode ENC encrypts DIN ⊕ CHAIN into DOUT and CHAIN, emits its events if PTRACE, and changes
nothing else. -/
def Obligations.CbcEncBlockChains : Prop :=
  ∀ s : State, s.keyValid = true → s.mode = .enc →
    ∃ (c : Block) (evs : List TraceEvent), IsBlock s.sk true (s.din ^^^ s.chain) c evs ∧
      exec .cbcEncBlock s = .next { s with
        dout := c
        chain := c
        trace := s.traceWith (evs ++ [.chain .enc (s.din ^^^ s.chain) c])
        err := .ok, done := true, busy := false }

/-- R106, R114: CBC_ENC_FINAL n in chain mode ENC pads the first n bytes of DIN with 8 − n bytes of value 8 − n, encrypts
the block into DOUT and CHAIN, sets MODE to IDLE, emits its events if PTRACE, and changes nothing else. -/
def Obligations.CbcEncFinalPadsAndEnds : Prop :=
  ∀ (n : BitVec 4) (s : State), n.toNat ≤ 7 → s.keyValid = true → s.mode = .enc →
    ∃ (q c : Block) (evs : List TraceEvent),
      (∀ k < 8, byteNat q k = if k < n.toNat then byteNat s.din k else 8 - n.toNat) ∧
      IsBlock s.sk true (q ^^^ s.chain) c evs ∧
      exec (.cbcEncFinal n) s = .next { s with
        dout := c
        chain := c
        mode := .idle
        trace := s.traceWith (.padding (BitVec.ofNat 8 (8 - n.toNat)) :: evs ++ [.chain .enc (q ^^^ s.chain) c])
        err := .ok, done := true, busy := false }

/-- R115: CBC_DEC_INIT with a key and in chain mode IDLE puts DIN in CHAIN, sets MODE to DEC, and changes nothing else. -/
def Obligations.CbcDecInitTakesIv : Prop :=
  ∀ s : State, s.keyValid = true → s.mode = .idle →
    exec .cbcDecInit s = .next { s with
      chain := s.din, mode := .dec, err := .ok, done := true, busy := false }

/-- R116: CBC_DEC_BLOCK in chain mode DEC puts D_K(DIN) ⊕ CHAIN in DOUT and the raw cipher block in CHAIN, emits its events
if PTRACE, and changes nothing else. -/
def Obligations.CbcDecBlockChains : Prop :=
  ∀ s : State, s.keyValid = true → s.mode = .dec →
    ∃ (d : Block) (evs : List TraceEvent), IsBlock s.sk false s.din d evs ∧
      exec .cbcDecBlock s = .next { s with
        dout := d ^^^ s.chain
        chain := s.din
        trace := s.traceWith (evs ++ [.chain .dec s.din (d ^^^ s.chain)])
        err := .ok, done := true, busy := false }

/-- R107, R117: CBC_DEC_FINAL in chain mode DEC ends the message and decides on the padding of the last block: valid, it
leaves the unpadded bytes in DOUT and their count in RESULT.NBYTES with OK; invalid, it leaves 0 in both with PAD. CHAIN,
MODE and the events are the same either way, and nothing else changes. -/
def Obligations.CbcDecFinalChecksPadding : Prop :=
  ∀ s : State, s.keyValid = true → s.mode = .dec →
    ∃ (d p : Block) (evs : List TraceEvent), IsBlock s.sk false s.din d evs ∧ p = d ^^^ s.chain ∧
      (PaddingValid p → ∃ o : Block,
        (∀ k < 8, byteNat o k = if k < 8 - byteNat p 7 then byteNat p k else 0) ∧
        exec .cbcDecFinal s = .next { s with
          dout := o
          nbytes := BitVec.ofNat 4 (8 - byteNat p 7)
          chain := s.din
          mode := .idle
          trace := s.traceWith (evs ++ [.chain .dec s.din p, .unpad (BitVec.ofNat 8 (byteNat p 7)) true])
          err := .ok, done := true, busy := false }) ∧
      (¬ PaddingValid p →
        exec .cbcDecFinal s = .next { s with
          dout := 0
          nbytes := 0
          chain := s.din
          mode := .idle
          trace := s.traceWith (evs ++ [.chain .dec s.din p, .unpad (BitVec.ofNat 8 (byteNat p 7)) false])
          err := .pad, done := true, busy := false })

/-- R118: CBC_ABORT sets MODE to IDLE, completes with OK, and changes nothing else. -/
def Obligations.CbcAbortEndsMessage : Prop :=
  ∀ s : State, exec .cbcAbort s = .next { s with mode := .idle, err := .ok, done := true, busy := false }

/-- R111: the chain mode after every command, in every chain mode, and after reset. A command refused for BAD_ARG or NO_KEY
leaves it; of the others, exactly those R111 marks 'refused' report SEQ, changing nothing but the completion, and MODE is as
its table says. -/
def Obligations.ChainModeTransitions : Prop :=
  (∀ (i : Instr) (s t : State), exec i s = .next t →
    (t.err = .badArg ∨ t.err = .noKey → t.mode = s.mode) ∧
    (t.err ≠ .badArg → t.err ≠ .noKey →
      t.mode = modeAfter i s.mode ∧ (t.err = .seq ↔ ∃ m, neededMode i = some m ∧ s.mode ≠ m)) ∧
    (t.err = .seq → t = { s with err := .seq, done := true, busy := false })) ∧
  (∀ (s : State) (rest : List Turn), s.schedule = .reset :: rest → ∃ t, step s = .next t ∧ t.mode = .idle)

/-- R108, R110: the IV and the outputs of a streamed encryption of whole blocks `bs` and the first n bytes of `d` are
`cbc_encrypt` of that message under the loaded key, for any number of blocks. -/
def Obligations.StreamEncryptsPayload : Prop :=
  ∀ (s t0 : State) (bs : List Block) (d : Block) (n : BitVec 4),
    s.keyValid = true → s.mode = .idle → n.toNat ≤ 7 → exec .cbcEncInit s = .next t0 →
    ∃ t, exec (.cbcEncFinal n) { (streamBlocks .cbcEncBlock bs t0).2 with din := d } = .next t ∧ t.err = .ok ∧
      (t0.dout :: (streamBlocks .cbcEncBlock bs t0).1 ++ [t.dout]).flatMap bytesOf =
        cbcEncrypt s.sk (bs.flatMap bytesOf ++ (bytesOf d).take n.toNat) t0.dout

/-- R109, R110: the outputs of a streamed decryption of iv ‖ cs ‖ c are `cbc_decrypt` of those bytes if the last command
reports OK; if it does not, it reports PAD and `cbc_decrypt` fails. -/
def Obligations.StreamDecryptsPayload : Prop :=
  ∀ (s t0 : State) (iv : Block) (cs : List Block) (c : Block),
    s.keyValid = true → s.mode = .idle → exec .cbcDecInit { s with din := iv } = .next t0 →
    ∃ t, exec .cbcDecFinal { (streamBlocks .cbcDecBlock cs t0).2 with din := c } = .next t ∧
      ((t.err = .ok ∧ cbcDecrypt s.sk ((iv :: cs ++ [c]).flatMap bytesOf) =
          some ((streamBlocks .cbcDecBlock cs t0).1.flatMap bytesOf ++ (bytesOf t.dout).take t.nbytes.toNat)) ∨
        (t.err = .pad ∧ cbcDecrypt s.sk ((iv :: cs ++ [c]).flatMap bytesOf) = none))

/-- R109: decrypting an encrypted message gives the message, for every message, IV and subkey file. -/
def Obligations.PayloadRoundTrip : Prop :=
  ∀ (sk : Vector Subkey 16) (m : List Byte) (iv : Block), cbcDecrypt sk (cbcEncrypt sk m iv) = some m

/-- R120: the length of a ciphertext. -/
def Obligations.CiphertextLength : Prop :=
  ∀ (sk : Vector Subkey 16) (m : List Byte) (iv : Block),
    (cbcEncrypt sk m iv).length = 8 + 8 * ((m.length + 1 + 7) / 8)

/-! ### Diffie–Hellman and modular exponentiation -/

/-- R122, R124: DH_INIT with valid parameters, from P and G or from the defaults, latches p, draws a in [2, p − 2], computes
g^a mod p into PUB, drops any shared key, becomes keyed, and changes nothing else; with the defaults the parameters are
always valid. R8: every a of that range is drawn by some free input of the step (where it stands: log entry 1). -/
def Obligations.DhInitMakesKeyPair : Prop :=
  ∀ (dflt : BitVec 4) (s : State) (p g : Big),
    (dflt = 0 ∧ p = s.p ∧ g = s.g ∧ 4 ≤ p.toNat ∧ 2 ≤ g.toNat ∧ g.toNat < p.toNat) ∨
      (dflt = 1 ∧ p = Config.pDefault ∧ g = 2) →
    (∃ a pub : Big, 2 ≤ a.toNat ∧ a.toNat ≤ p.toNat - 2 ∧ pub.toNat = g.toNat ^ a.toNat % p.toNat ∧
      exec (.dhInit dflt) s = .next { s with
        p := p, g := g, psess := p, priv := a, pub := pub, ssec := 0, dhkey := 0, dhKeyed := true, dhkeyValid := false
        err := .ok, done := true, busy := false }) ∧
    ∀ a : Big, 2 ≤ a.toNat → a.toNat ≤ p.toNat - 2 →
      ∃ (d : Draw) (t : State), exec (.dhInit dflt) { s with draw := d } = .next t ∧ t.err = .ok ∧ t.priv = a

/-- R125, R126: DH_SHARED in a keyed state, for any PEER value, puts PEER^PRIV mod PSESS in SSEC and the first 8 bytes of the
digest of its encoding in DHKEY, sets DHKEY_VALID, and changes nothing else. PSESS ≥ 1 in every state that a run reaches
(StepKeepsInvariants). -/
def Obligations.DhSharedDerivesKey : Prop :=
  ∀ s : State, s.dhKeyed = true →
    ∃ (S : Nat) (dk : Block),
      (1 ≤ s.psess.toNat → S = s.peer.toNat ^ s.priv.toNat % s.psess.toNat) ∧
      (∀ k < 8, byteNat dk k = ((Config.hDh (Config.encS S)).bytes.getD k 0).toNat) ∧
      exec .dhShared s = .next { s with
        ssec := BitVec.ofNat 2048 S, dhkey := dk, dhkeyValid := true, err := .ok, done := true, busy := false }

/-- R127: DH_CLEAR zeroes PRIV, SSEC, PUB and DHKEY, becomes uninitialized, completes with OK, and changes nothing else. -/
def Obligations.DhClearEndsSession : Prop :=
  ∀ s : State, exec .dhClear s = .next { s with
    priv := 0, ssec := 0, pub := 0, dhkey := 0, dhKeyed := false, dhkeyValid := false
    err := .ok, done := true, busy := false }

/-- R121, R128: MODEXP with MM ≠ 0 puts exactly MX^ME mod MM in MR, for all operands (with MX^0 = 1), and changes nothing
else. -/
def Obligations.ModexpIsExact : Prop :=
  ∀ s : State, s.mm ≠ 0 →
    ∃ r : Big, r.toNat = s.mx.toNat ^ s.me.toNat % s.mm.toNat ∧
      exec .modexp s = .next { s with mr := r, err := .ok, done := true, busy := false }

/-- R123: the DH state after every command, in every DH state. -/
def Obligations.DhStateTransitions : Prop :=
  ∀ (i : Instr) (s t : State), exec i s = .next t →
    (∀ d, i = .dhInit d → t.err = .ok → t.dhKeyed = true ∧ t.dhkeyValid = false) ∧
    (i = .dhShared → if s.dhKeyed then t.err = .ok ∧ t.dhKeyed = true ∧ t.dhkeyValid = true else t.err = .dhState) ∧
    (i = .dhClear ∨ i = .softReset → t.dhKeyed = false ∧ t.dhkeyValid = false) ∧
    (i = .keyFromDh → s.dhkeyValid = false → t.err = .seq ∨ t.err = .dhState) ∧
    (t.err ≠ .ok ∨ ((∀ d, i ≠ .dhInit d) ∧ i ≠ .dhShared ∧ i ≠ .dhClear ∧ i ≠ .softReset) →
      t.dhKeyed = s.dhKeyed ∧ t.dhkeyValid = s.dhkeyValid)

/-- R129: two parties with the same valid P and G that exchange their PUB values compute the same shared secret, g^(ab) mod
p, and the same DHKEY. -/
def Obligations.DhAgreement : Prop :=
  ∀ s1 s2 : State, s1.p = s2.p → s1.g = s2.g → 4 ≤ s1.p.toNat → 2 ≤ s1.g.toNat → s1.g.toNat < s1.p.toNat →
    ∃ u1 u2 t1 t2, exec (.dhInit 0) s1 = .next u1 ∧ exec (.dhInit 0) s2 = .next u2 ∧
      exec .dhShared { u1 with peer := u2.pub } = .next t1 ∧ exec .dhShared { u2 with peer := u1.pub } = .next t2 ∧
      t1.ssec.toNat = s1.g.toNat ^ (u1.priv.toNat * u2.priv.toNat) % s1.p.toNat ∧
      t1.ssec = t2.ssec ∧ t1.dhkey = t2.dhkey

/-! ### The whole machine -/

/-- R38, R39: the invariants hold right after reset. -/
def Obligations.InvariantsHoldAtReset : Prop :=
  State.reset.Inv

/-- R38: every step keeps the invariants, whatever is scheduled and whatever word is pending. -/
def Obligations.StepKeepsInvariants : Prop :=
  ∀ s t : State, s.Inv → step s = .next t → t.Inv

/-- R24–R32, R35: which commands can change which register, by opcode; of CTRL, CMD, PEND, PTRACE and BUSY_VIOL, only
SOFT_RESET changes any, and no command changes what the host has read, what is scheduled or the free inputs (the model's
own fields: log entries 1 to 3). -/
def Obligations.OnlyTheseCommandsWrite : Prop :=
  ∀ (i : Instr) (s t : State), exec i s = .next t →
    (t.dout ≠ s.dout → i.op ∈ [0x03, 0x08, 0x09, 0x0A, 0x10, 0x11, 0x20, 0x21, 0x22, 0x25, 0x26, 0x3F]) ∧
    (t.chain ≠ s.chain → i.op ∈ [0x20, 0x21, 0x22, 0x24, 0x25, 0x26, 0x3F]) ∧
    (t.nbytes ≠ s.nbytes → i.op ∈ [0x26, 0x3F]) ∧
    (t.sk ≠ s.sk ∨ t.keyValid ≠ s.keyValid → i.op ∈ [0x01, 0x02, 0x3F]) ∧
    (t.key ≠ s.key → i.op ∈ [0x02, 0x3F]) ∧
    (t.din ≠ s.din ∨ t.peer ≠ s.peer ∨ t.mx ≠ s.mx ∨ t.me ≠ s.me ∨ t.mm ≠ s.mm → i.op = 0x3F) ∧
    (t.p ≠ s.p ∨ t.g ≠ s.g ∨ t.psess ≠ s.psess → i.op ∈ [0x30, 0x3F]) ∧
    (t.pub ≠ s.pub ∨ t.priv ≠ s.priv → i.op ∈ [0x30, 0x32, 0x3F]) ∧
    (t.ssec ≠ s.ssec ∨ t.dhkey ≠ s.dhkey → i.op ∈ [0x30, 0x31, 0x32, 0x3F]) ∧
    (t.mr ≠ s.mr → i.op ∈ [0x38, 0x3F]) ∧
    (t.irqEn ≠ s.irqEn ∨ t.traceEn ≠ s.traceEn ∨ t.cmd ≠ s.cmd ∨ t.pend ≠ s.pend ∨ t.ptrace ≠ s.ptrace ∨
      t.busyViol ≠ s.busyViol → i.op = 0x3F) ∧
    t.busReads = s.busReads ∧ t.schedule = s.schedule ∧ t.draw = s.draw ∧ t.lastDraw = s.lastDraw

/-- R37, R150: the trace output only grows, and only a core step that executes a word with PTRACE = 1 makes it grow: no
read, write or reset, and no move of an idle core, adds an event (whose move it is: log entry 2). -/
def Obligations.TraceOnlyGrows : Prop :=
  ∀ s t : State, step s = .next t →
    ∃ evs, t.trace = s.trace ++ evs ∧
      (s.busy = false ∨ s.ptrace = false ∨ (¬ ∃ d rest, s.coreNext d rest) → evs = [])

/-- R151: tracing never influences any state: two states that differ in the trace output and in PTRACE alone step to states
that differ in these alone. -/
def Obligations.TracingHasNoInfluence : Prop :=
  ∀ s t : State, s.untraced = t.untraced →
    ∃ s' t', step s = .next s' ∧ step t = .next t' ∧ s'.untraced = t'.untraced

/-- R35, R146: two states that differ in PRIV, SSEC and PSESS alone step to states that differ in these alone, unless the
step is the execution of DH_SHARED, where DHKEY may differ too: nothing the host can see depends on the confidential
elements except through DHKEY (PUB is computed from the exponent as it is drawn). The states may also differ in the model's
own `draw`, the free input of an earlier core step (log entry 1): no step reads it. -/
def Obligations.SecretsStayInside : Prop :=
  ∀ s t : State, s.withoutSecrets = t.withoutSecrets →
    ∃ s' t', step s = .next s' ∧ step t = .next t' ∧
      { s' with dhkey := 0 }.withoutSecrets = { t' with dhkey := 0 }.withoutSecrets ∧
      (¬ s.executes .dhShared → s'.withoutSecrets = t'.withoutSecrets)
end

