-- ==== Sys2Proof/Laws/Arith.lean ====
section
/-! SUPPORT. Square-and-multiply computes the power (spec/44_dh_modexp.md rule R121). -/

namespace Sys2Proof.Machine

theorem modexpBits_eq (fuel b e m : Nat) (he : e < 2 ^ fuel) : modexpBits fuel b e m = b ^ e % m := by
  induction fuel generalizing b e with
  | zero =>
    have : e = 0 := by simpa using he
    subst this; simp [modexpBits]
  | succ fuel ih =>
    rw [modexpBits]
    by_cases h0 : e = 0
    · simp [h0]
    · have hhalf : e / 2 < 2 ^ fuel := by
        rw [Nat.div_lt_iff_lt_mul (by decide)]; simpa [pow_succ] using he
      have hsq : (b * b % m) ^ (e / 2) % m = b ^ (2 * (e / 2)) % m := by
        rw [← Nat.pow_mod, ← pow_two, ← pow_mul]
      simp only [h0, if_false, ih _ _ hhalf, hsq]
      by_cases hodd : e % 2 = 1
      · have e' : e = 2 * (e / 2) + 1 := by omega
        rw [if_pos hodd, Nat.mul_mod_mod]
        conv_rhs => rw [e', pow_succ, Nat.mul_comm]
      · have e' : e = 2 * (e / 2) := by omega
        rw [if_neg hodd]
        conv_rhs => rw [e']

/-- R121: the engine's value is exactly (b^e) mod m. -/
theorem modexp_eq (b e m : Nat) (he : e < 2 ^ 2048) (hm : 0 < m) : modexp b e m = b ^ e % m := by
  rw [modexp, if_neg (by omega), modexpBits_eq _ _ _ _ he, ← Nat.pow_mod]

theorem modexp_lt (b e m : Nat) (he : e < 2 ^ 2048) (hm : 0 < m) : modexp b e m < m := by
  rw [modexp_eq b e m he hm]; exact Nat.mod_lt _ hm

/-- The engine's value fits a big-number register. -/
theorem modexp_toNat (b e : Nat) (m : Big) (he : e < 2 ^ 2048) (hm : 0 < m.toNat) :
    (BitVec.ofNat 2048 (modexp b e m.toNat)).toNat = b ^ e % m.toNat := by
  have h := modexp_lt b e m.toNat he hm
  rw [BitVec.toNat_ofNat, Nat.mod_eq_of_lt (lt_trans h m.isLt), modexp_eq b e _ he hm]

/-- R124: the drawn exponent is in [2, p − 2]. -/
theorem drawnExponent_mem (p : Nat) (s : State) (hp : 4 ≤ p) :
    2 ≤ drawnExponent p s ∧ drawnExponent p s ≤ p - 2 := by
  have : s.draw.exponent % (p - 3) < p - 3 := Nat.mod_lt _ (by omega)
  unfold drawnExponent
  omega

/-- R8: every number of [2, p − 2] is drawn by some free input. -/
theorem drawnExponent_onto (p a : Nat) (s : State) (h2 : 2 ≤ a) (hp : a ≤ p - 2) (h : s.draw.exponent = a - 2) :
    drawnExponent p s = a := by
  have : (a - 2) % (p - 3) = a - 2 := Nat.mod_eq_of_lt (by omega)
  rw [drawnExponent, h, this]
  omega

/-- A number with its bit `n + 2` set is at least 4. -/
theorem four_le_of_testBit {x n : Nat} (h : x.testBit (n + 2) = true) : 4 ≤ x := by
  have h1 : 2 ^ (n + 2) ≤ x := Nat.ge_two_pow_of_testBit h
  have h2 : 1 ≤ 2 ^ n := Nat.one_le_two_pow
  rw [pow_add] at h1
  omega

/-- R7: the top bit of P_DEFAULT is set, that is, 2^2047 ≤ P_DEFAULT. -/
theorem pDefault_topBit : Config.pDefault.toNat.testBit 2047 = true := by
  rw [BitVec.testBit_toNat, Config.pDefault, BitVec.getLsbD_or, BitVec.getLsbD_twoPow]
  simp

theorem pDefault_ge_four : 4 ≤ Config.pDefault.toNat :=
  four_le_of_testBit (n := 2045) pDefault_topBit

/-- R124: with the defaults, the parameter check cannot fail. -/
theorem dhValid_defaults : dhValid Config.pDefault.toNat Config.gDefault.toNat = true := by
  have h4 := pDefault_ge_four
  have hg : Config.gDefault.toNat = 2 := by decide +kernel
  simp only [dhValid, hg, Bool.and_eq_true, decide_eq_true_eq]
  omega

end Sys2Proof.Machine
end

