-- ==== Sys2Proof/Laws/Bits.lean ====
section
/-! SUPPORT. What the bit-sequence, byte and word operations of Machine/Bits.lean do, said once each. -/

namespace Sys2Proof.Machine

theorem foldl_bits_lt {n : Nat} (s : BitVec n) (T : List Nat) (a : Nat) :
    T.foldl (fun acc j => 2 * acc + (bitAt s j).toNat) a < (a + 1) * 2 ^ T.length := by
  induction T generalizing a with
  | nil => simp
  | cons j T ih =>
    refine lt_of_lt_of_le (ih _) ?_
    have hb : (bitAt s j).toNat ≤ 1 := by cases bitAt s j <;> simp
    calc (2 * a + (bitAt s j).toNat + 1) * 2 ^ T.length ≤ (2 * a + 2) * 2 ^ T.length :=
          Nat.mul_le_mul_right _ (by omega)
      _ = (a + 1) * 2 ^ (j :: T).length := by simp [pow_succ]; ring

theorem testBit_foldl_bits {n : Nat} (s : BitVec n) (T : List Nat) (a i : Nat) :
    (T.foldl (fun acc j => 2 * acc + (bitAt s j).toNat) a).testBit i =
      if i < T.length then bitAt s (T.getD (T.length - 1 - i) 0) else a.testBit (i - T.length) := by
  induction T generalizing a i with
  | nil => simp
  | cons j T ih =>
    rw [List.foldl_cons, ih]
    simp only [List.length_cons]
    by_cases h : i < T.length
    · have h' : i < T.length + 1 := by omega
      rw [if_pos h, if_pos h']
      congr 1
      have e : T.length + 1 - 1 - i = (T.length - 1 - i) + 1 := by omega
      rw [e, List.getD_cons_succ]
    · by_cases h2 : i = T.length
      · subst h2
        rw [if_neg h, if_pos (by omega)]
        cases hb : bitAt s j <;> simp [hb]
      · rw [if_neg h, if_neg (by omega)]
        obtain ⟨k, hk⟩ : ∃ k, i - T.length = k + 1 := ⟨i - T.length - 1, by omega⟩
        have e : i - (T.length + 1) = k := by omega
        rw [hk, e, Nat.testBit_succ]
        congr 1
        cases bitAt s j
        · simp
        · simp; omega

/-- R14, R87: position `j + 1` of the permuted sequence is the source position that the table names there. -/
theorem getMsbD_permute {n m : Nat} (T : List Nat) (s : BitVec n) (hT : T.length = m) (j : Nat) (hj : j < m) :
    (permute m T s).getMsbD j = bitAt s (T.getD j 0) := by
  subst hT
  have hlt := foldl_bits_lt s T 0
  rw [permute, BitVec.getMsbD_eq_getLsbD, BitVec.getLsbD_ofNat, testBit_foldl_bits, if_pos (by omega)]
  have e : T.length - 1 - (T.length - 1 - j) = j := by omega
  simp [hj, e]
  omega

theorem getMsbD_topAlign {m : Nat} (s : BitVec m) (hm : m ≤ 64) (j : Nat) :
    (topAlign s).getMsbD j = s.getMsbD j := by
  have hs := s.isLt
  rw [topAlign, BitVec.getMsbD_eq_getLsbD, BitVec.getLsbD_ofNat, Nat.testBit_mul_two_pow, BitVec.getMsbD_eq_getLsbD]
  by_cases hj : j < m
  · have h1 : j < 64 := by omega
    have h2 : 64 - m ≤ 64 - 1 - j := by omega
    have h3 : 64 - 1 - j - (64 - m) = m - 1 - j := by omega
    have h4 : 64 - 1 - j < 64 := by omega
    simp only [h1, h2, h3, h4, hj, decide_true, Bool.true_and]; rfl
  · by_cases h1 : j < 64
    · have h2 : ¬ 64 - m ≤ 64 - 1 - j := by omega
      simp [h2, hj]
    · simp [h1, hj]

theorem getMsbD_subseq {n : Nat} (s : BitVec n) (i len j : Nat) (hi : 1 ≤ i) (h : i - 1 + len ≤ n) (hj : j < len) :
    (subseq s i len).getMsbD j = bitAt s (i + j) := by
  rw [subseq, bitAt, BitVec.getMsbD_eq_getLsbD, BitVec.getLsbD_extractLsb', BitVec.getMsbD_eq_getLsbD]
  have h1 : len - 1 - j < len := by omega
  have h2 : i + j - 1 < n := by omega
  have h3 : n - (i - 1) - len + (len - 1 - j) = n - 1 - (i + j - 1) := by omega
  simp [hj, h1, h2, h3]

theorem byteOf_toNat (x : Block) (k : Nat) : (byteOf x k).toNat = x.toNat / 2 ^ (56 - 8 * k) % 256 := by
  simp [byteOf, BitVec.extractLsb'_toNat, Nat.shiftRight_eq_div_pow]

theorem blockOfFn_toNat (f : Nat → Byte) :
    (blockOfFn f).toNat = (f 0).toNat * 2 ^ 56 + (f 1).toNat * 2 ^ 48 + (f 2).toNat * 2 ^ 40 + (f 3).toNat * 2 ^ 32
      + (f 4).toNat * 2 ^ 24 + (f 5).toNat * 2 ^ 16 + (f 6).toNat * 2 ^ 8 + (f 7).toNat := by
  have step : ∀ (n : Nat) (a : BitVec n) (b : Byte), (a ++ b).toNat = a.toNat * 256 + b.toNat := by
    intro n a b
    rw [BitVec.toNat_append, Nat.shiftLeft_eq, Nat.mul_comm, ← Nat.two_pow_add_eq_or_of_lt b.isLt, Nat.mul_comm]
  unfold blockOfFn
  simp only [step]
  omega

/-- R46: byte `k` of the block made of `f 0 … f 7` is `f k`. -/
theorem byteOf_blockOfFn (f : Nat → Byte) (k : Nat) (hk : k < 8) : byteOf (blockOfFn f) k = f k := by
  have hb := fun i => (f i).isLt
  have h0 := hb 0; have h1 := hb 1; have h2 := hb 2; have h3 := hb 3
  have h4 := hb 4; have h5 := hb 5; have h6 := hb 6; have h7 := hb 7
  apply BitVec.eq_of_toNat_eq
  rw [byteOf_toNat, blockOfFn_toNat]
  obtain rfl | rfl | rfl | rfl | rfl | rfl | rfl | rfl :
      k = 0 ∨ k = 1 ∨ k = 2 ∨ k = 3 ∨ k = 4 ∨ k = 5 ∨ k = 6 ∨ k = 7 := by omega
  all_goals simp only [Nat.mul_zero, Nat.mul_one, Nat.reduceMul, Nat.reduceSub, Nat.reducePow, Nat.sub_zero]; omega

/-- A block is its eight bytes. -/
theorem block_eq_of_bytes {x y : Block} (h : ∀ k < 8, byteOf x k = byteOf y k) : x = y := by
  have hx := x.isLt
  have hy := y.isLt
  have e : ∀ k < 8, x.toNat / 2 ^ (56 - 8 * k) % 256 = y.toNat / 2 ^ (56 - 8 * k) % 256 := by
    intro k hk; rw [← byteOf_toNat, ← byteOf_toNat, h k hk]
  have e0 := e 0 (by omega); have e1 := e 1 (by omega); have e2 := e 2 (by omega); have e3 := e 3 (by omega)
  have e4 := e 4 (by omega); have e5 := e 5 (by omega); have e6 := e 6 (by omega); have e7 := e 7 (by omega)
  simp only [Nat.mul_zero, Nat.mul_one, Nat.reduceMul, Nat.reduceSub, Nat.reducePow, Nat.sub_zero, Nat.div_one] at *
  apply BitVec.eq_of_toNat_eq
  omega

/-- R10: `bits(bytes(s)) = s`. -/
theorem blockOfBytes_bytesOf (x : Block) (l : List Byte) : blockOfBytes (bytesOf x ++ l) = x :=
  block_eq_of_bytes fun k hk => by
    rw [blockOfBytes, byteOf_blockOfFn _ _ hk, List.getD_append _ _ _ _ (by simpa [bytesOf] using hk)]
    simp [bytesOf, hk]

@[simp] theorem length_bytesOf (x : Block) : (bytesOf x).length = 8 := by simp [bytesOf]

theorem getD_bytesOf (x : Block) (k : Nat) (hk : k < 8) : (bytesOf x).getD k 0 = byteOf x k := by
  simp [bytesOf, hk]

/-- R10: `bytes(bits(b)) = b`. -/
theorem bytesOf_blockOfBytes (l : List Byte) (h : l.length = 8) : bytesOf (blockOfBytes l) = l := by
  apply List.ext_getElem (by simp [h])
  intro k h1 h2
  have hk : k < 8 := by simpa using h1
  simp [bytesOf, blockOfBytes, byteOf_blockOfFn _ _ hk, h2]

theorem hiWord_toNat (x : Block) : (hiWord x).toNat = x.toNat / 2 ^ 32 := by
  have := x.isLt
  simp only [hiWord, BitVec.extractLsb'_toNat, Nat.shiftRight_eq_div_pow]
  omega

theorem loWord_toNat (x : Block) : (loWord x).toNat = x.toNat % 2 ^ 32 := by
  simp [loWord, BitVec.extractLsb'_toNat]

theorem append_words_toNat (a b : Word) : (a ++ b : Block).toNat = a.toNat * 2 ^ 32 + b.toNat := by
  rw [BitVec.toNat_append, Nat.shiftLeft_eq, Nat.mul_comm, ← Nat.two_pow_add_eq_or_of_lt b.isLt, Nat.mul_comm]

@[simp] theorem hiWord_append (a b : Word) : hiWord (a ++ b) = a := by
  have := b.isLt
  apply BitVec.eq_of_toNat_eq
  rw [hiWord_toNat, append_words_toNat]
  omega

@[simp] theorem loWord_append (a b : Word) : loWord (a ++ b) = b := by
  have := b.isLt
  apply BitVec.eq_of_toNat_eq
  rw [loWord_toNat, append_words_toNat]
  omega

@[simp] theorem hiWord_append_loWord (x : Block) : (hiWord x ++ loWord x : Block) = x := by
  have := x.isLt
  apply BitVec.eq_of_toNat_eq
  rw [append_words_toNat, hiWord_toNat, loWord_toNat]
  omega

@[simp] theorem hiWord_setHiWord (x : Block) (v : Word) : hiWord (setHiWord x v) = v := by simp [setHiWord]
@[simp] theorem loWord_setHiWord (x : Block) (v : Word) : loWord (setHiWord x v) = loWord x := by simp [setHiWord]
@[simp] theorem hiWord_setLoWord (x : Block) (v : Word) : hiWord (setLoWord x v) = hiWord x := by simp [setLoWord]
@[simp] theorem loWord_setLoWord (x : Block) (v : Word) : loWord (setLoWord x v) = v := by simp [setLoWord]

theorem bigWord_toNat (x : Big) (k : Fin 64) : (bigWord x k).toNat = x.toNat / 2 ^ (32 * k.val) % 2 ^ 32 := by
  simp [bigWord, BitVec.extractLsb'_toNat, Nat.shiftRight_eq_div_pow]

theorem getLsbD_bigWord (x : Big) (k : Fin 64) (i : Nat) (hi : i < 32) :
    (bigWord x k).getLsbD i = x.getLsbD (32 * k.val + i) := by
  simp [bigWord, hi]

theorem getLsbD_setBigWord (x : Big) (k : Fin 64) (v : Word) (i : Nat) (hi : i < 2048) :
    (setBigWord x k v).getLsbD i =
      if 32 * k.val ≤ i ∧ i < 32 * k.val + 32 then v.getLsbD (i - 32 * k.val) else x.getLsbD i := by
  have hk := k.isLt
  simp only [setBigWord, BitVec.getLsbD_or, BitVec.getLsbD_and, BitVec.getLsbD_not, BitVec.getLsbD_shiftLeft,
    BitVec.getLsbD_setWidth, BitVec.getLsbD_allOnes]
  by_cases h1 : 32 * k.val ≤ i
  · by_cases h2 : i < 32 * k.val + 32
    · have h3 : i - 32 * k.val < 32 := by omega
      have h4 : i - 32 * k.val < 2048 := by omega
      have h5 : ¬ i < 32 * k.val := by omega
      simp [hi, h1, h2, h3, h4, h5]
    · have h3 : ¬ i - 32 * k.val < 32 := by omega
      have h4 : v.getLsbD (i - 32 * k.val) = false := BitVec.getLsbD_of_ge _ _ (by omega)
      simp [hi, h2, h3, h4]
  · have h2 : i < 32 * k.val := by omega
    simp [hi, h1, h2]

/-- R47: a word that is written reads back. -/
@[simp] theorem bigWord_setBigWord_same (x : Big) (k : Fin 64) (v : Word) : bigWord (setBigWord x k v) k = v := by
  have hk := k.isLt
  apply BitVec.eq_of_getLsbD_eq
  intro i hi
  rw [getLsbD_bigWord _ _ _ hi, getLsbD_setBigWord _ _ _ _ (by omega), if_pos (by omega)]
  congr 1; omega

/-- R47: a write of one word leaves every other word. -/
theorem bigWord_setBigWord_ne (x : Big) (k j : Fin 64) (v : Word) (h : j ≠ k) :
    bigWord (setBigWord x k v) j = bigWord x j := by
  have hk := k.isLt
  have hj := j.isLt
  have hne : j.val ≠ k.val := fun e => h (Fin.ext e)
  apply BitVec.eq_of_getLsbD_eq
  intro i hi
  rw [getLsbD_bigWord _ _ _ hi, getLsbD_setBigWord _ _ _ _ (by omega), if_neg (by omega), getLsbD_bigWord _ _ _ hi]

end Sys2Proof.Machine
end

