-- ==== Sys2Proof/Laws/Cipher.lean ====
section
/-! SUPPORT. One lemma for each function of the cipher: what the permutations, the key schedule, the S-boxes, the round
function and the block core compute, in the terms of Safety.lean. -/

namespace Sys2Proof.Machine

/-- R14, R87 -/
theorem permute_selects {n m : Nat} (T : List Nat) (s : BitVec n) (hT : T.length = m) :
    SelectsBits T s (permute m T s) :=
  ⟨hT, fun j hj => by rw [getMsbD_permute T s hT j hj, bitAt]⟩

/-- A permuted sequence is the only one with those bits. -/
theorem selects_unique {n m : Nat} {T : List Nat} {s : BitVec n} {a b : BitVec m} (ha : SelectsBits T s a)
    (hb : SelectsBits T s b) : a = b :=
  BitVec.eq_of_getMsbD_eq fun j hj => by rw [ha.2 j hj, hb.2 j hj]

/-- The two parts of a sequence put together again. -/
theorem subseq_append_subseq {n a b : Nat} (s : BitVec n) (h : a + b = n) :
    (subseq s 1 a ++ subseq s (a + 1) b) = s.cast h.symm := by
  apply BitVec.eq_of_getMsbD_eq
  intro j hj
  rw [BitVec.getMsbD_append, BitVec.getMsbD_cast]
  by_cases hja : j < a
  · rw [if_neg (by omega), getMsbD_subseq s 1 a j (by omega) (by omega) hja, bitAt]
    congr 1; omega
  · rw [if_pos (by omega), getMsbD_subseq s (a + 1) b (j - a) (by omega) (by omega) (by omega), bitAt]
    congr 1; omega

theorem subkeyOf_eq (sk : Vector Subkey 16) (r : Nat) : subkeyOf sk (r + 1) = sk.toList.getD r 0 := rfl

/-- R92, one round: the halves are rotated and the subkey is taken from them. -/
theorem scheduleRounds_spec (shifts : List Nat) (c d : KsHalf) :
    ∃ C D : Nat → KsHalf, C 0 = c ∧ D 0 = d ∧ ∀ r < shifts.length,
      C (r + 1) = (C r).rotateLeft (shifts.getD r 0) ∧ D (r + 1) = (D r).rotateLeft (shifts.getD r 0) ∧
        (scheduleRounds shifts c d).getD r 0 = permute 48 pc2Table (C (r + 1) ++ D (r + 1)) := by
  induction shifts generalizing c d with
  | nil => exact ⟨fun _ => c, fun _ => d, rfl, rfl, fun r hr => absurd hr (Nat.not_lt_zero r)⟩
  | cons shift shifts ih =>
    obtain ⟨C, D, hC, hD, h⟩ := ih (c.rotateLeft shift) (d.rotateLeft shift)
    refine ⟨fun r => r.casesOn c C, fun r => r.casesOn d D, rfl, rfl, ?_⟩
    intro r hr
    cases r with
    | zero => exact ⟨hC, hD, by simp [scheduleRounds, hC, hD]⟩
    | succ r => simpa [scheduleRounds] using h r (by simpa using hr)

/-- R92 -/
theorem keySchedule_isSchedule (nk : Block) : IsSchedule nk (keySchedule nk) := by
  obtain ⟨C, D, hC, hD, h⟩ := scheduleRounds_spec shiftTable (subseq (permute 56 pc1Table nk) 1 28)
    (subseq (permute 56 pc1Table nk) 29 28)
  refine ⟨C, D, ?_, fun r hr => ?_⟩
  · rw [hC, hD, show (29 : Nat) = 28 + 1 from rfl, subseq_append_subseq (a := 28) (b := 28) _ rfl]
    exact permute_selects _ _ rfl
  · obtain ⟨h1, h2, h3⟩ := h r hr
    refine ⟨h1, h2, ?_⟩
    have e : (keySchedule nk).toList = scheduleRounds shiftTable (subseq (permute 56 pc1Table nk) 1 28)
        (subseq (permute 56 pc1Table nk) 29 28) := by simp [keySchedule]
    rw [e, h3]
    exact permute_selects _ _ rfl

/-- R91 -/
theorem byteNat_normKey (key : Block) (klen : BitVec 4) (k : Nat) (hk : k < 8) :
    byteNat (normKey key klen) k = if k < min klen.toNat 8 then byteNat key k else 0 := by
  rw [byteNat, ← byteOf_toNat, normKey, byteOf_blockOfFn _ _ hk, keyLength]
  split
  · rw [byteOf_toNat, byteNat]
  · rfl

/-- R93: the SUBKEY events of a key load. -/
theorem subkeyEvents_eq (sk : Vector Subkey 16) :
    subkeyEvents sk = (List.range 16).map (fun r => .subkey (r + 1) (sk.toList.getD r 0)) := rfl

theorem sboxRow_eq (g : BitVec 6) : sboxRow g = 2 * (g.toNat / 32) + g.toNat % 2 := by
  revert g; decide

theorem sboxCol_eq (g : BitVec 6) : sboxCol g = g.toNat / 2 % 16 := by
  revert g; decide

/-- Every S-box entry is a 4-bit value (R85). -/
theorem sboxEntry_lt : ∀ i < 8, ∀ g < 64, sboxEntry i g < 16 := by decide

/-- R98 -/
theorem sboxLookup_toNat (i : Nat) (hi : i < 8) (g : BitVec 6) :
    (sboxLookup (i + 1) g).toNat = sboxEntry i g.toNat := by
  have hg : g.toNat < 64 := g.isLt
  rw [sboxLookup, sboxRow_eq, sboxCol_eq, BitVec.toNat_ofNat]
  exact Nat.mod_eq_of_lt (sboxEntry_lt i hi g.toNat hg)

theorem sboxOnGroup_toNat (y : Subkey) (i : Nat) (hi : i < 8) :
    (sboxOnGroup y (i + 1)).toNat = sboxEntry i (y.toNat / 2 ^ (42 - 6 * i) % 64) := by
  rw [sboxOnGroup, sboxLookup_toNat i hi, subseq, BitVec.extractLsb'_toNat, Nat.shiftRight_eq_div_pow]
  have e : 48 - (6 * (i + 1) - 5 - 1) - 6 = 42 - 6 * i := by omega
  rw [e]

theorem substitute_toNat (y : Subkey) :
    (substitute y).toNat = (sboxOnGroup y 1).toNat * 2 ^ 28 + (sboxOnGroup y 2).toNat * 2 ^ 24
      + (sboxOnGroup y 3).toNat * 2 ^ 20 + (sboxOnGroup y 4).toNat * 2 ^ 16 + (sboxOnGroup y 5).toNat * 2 ^ 12
      + (sboxOnGroup y 6).toNat * 2 ^ 8 + (sboxOnGroup y 7).toNat * 2 ^ 4 + (sboxOnGroup y 8).toNat := by
  have step : ∀ (n : Nat) (a : BitVec n) (b : BitVec 4), (a ++ b).toNat = a.toNat * 16 + b.toNat := by
    intro n a b
    rw [BitVec.toNat_append, Nat.shiftLeft_eq, Nat.mul_comm, ← Nat.two_pow_add_eq_or_of_lt b.isLt, Nat.mul_comm]
  unfold substitute
  simp only [step]
  omega

/-- R99: nibble i of the substitution is S-box i + 1 on group i + 1. -/
theorem substitute_nibble (y : Subkey) (i : Nat) (hi : i < 8) :
    (substitute y).toNat / 2 ^ (28 - 4 * i) % 16 = sboxEntry i (y.toNat / 2 ^ (42 - 6 * i) % 64) := by
  rw [← sboxOnGroup_toNat y i hi, substitute_toNat]
  have hb := fun i => (sboxOnGroup y i).isLt
  have h1 := hb 1; have h2 := hb 2; have h3 := hb 3; have h4 := hb 4
  have h5 := hb 5; have h6 := hb 6; have h7 := hb 7; have h8 := hb 8
  obtain rfl | rfl | rfl | rfl | rfl | rfl | rfl | rfl :
      i = 0 ∨ i = 1 ∨ i = 2 ∨ i = 3 ∨ i = 4 ∨ i = 5 ∨ i = 6 ∨ i = 7 := by omega
  all_goals
    simp only [Nat.mul_zero, Nat.mul_one, Nat.zero_add, Nat.reduceAdd, Nat.reduceMul, Nat.reduceSub, Nat.reducePow,
      Nat.sub_zero]
    omega

/-- R99 -/
theorem roundF_isRound (r : Half) (k : Subkey) :
    IsRound r k (expand r) (substitute (expand r ^^^ k)) (roundF r k) :=
  ⟨permute_selects _ _ rfl, fun i hi => substitute_nibble _ i hi, permute_selects _ _ rfl⟩

/-- R100: the halves of a run of rounds, round by round, and its ROUND events. -/
theorem feistel_spec (ks : List Subkey) (i0 : Nat) (l r : Half) :
    ∃ L R : Nat → Half, L 0 = l ∧ R 0 = r ∧
      (∀ i < ks.length, L (i + 1) = R i ∧ R (i + 1) = L i ^^^ roundF (R i) (ks.getD i 0)) ∧
      feistel ks (l, r) = (L ks.length, R ks.length) ∧
      feistelEvents i0 ks (l, r) =
        (List.range ks.length).map (fun i => roundEvent (i0 + i) (R i) (ks.getD i 0)) := by
  induction ks generalizing i0 l r with
  | nil => exact ⟨fun _ => l, fun _ => r, rfl, rfl, fun i hi => absurd hi (Nat.not_lt_zero i), rfl, rfl⟩
  | cons k ks ih =>
    obtain ⟨L, R, hL, hR, h, hf, he⟩ := ih (i0 + 1) r (l ^^^ roundF r k)
    refine ⟨fun i => i.casesOn l L, fun i => i.casesOn r R, rfl, rfl, ?_, ?_, ?_⟩
    · intro i hi
      cases i with
      | zero => exact ⟨hL, hR⟩
      | succ i => simpa using h i (by simpa using hi)
    · simpa [feistel] using hf
    · rw [feistelEvents, he, List.length_cons, List.range_succ_eq_map, List.map_cons, List.map_map]
      congr 1
      apply List.map_congr_left
      intro i _
      have e : i0 + 1 + i = i0 + (i + 1) := by omega
      simp [e]

theorem subkeyOrder_getD (sk : Vector Subkey 16) (enc : Bool) (i : Nat) (hi : i < 16) :
    (subkeyOrder sk enc).getD i 0 = sk.toList.getD (if enc then i else 15 - i) 0 := by
  have hr : (List.range' 1 16)[i]? = some (1 + i) := by simp [hi]
  rw [subkeyOrder, List.getD_eq_getElem?_getD, List.getElem?_map, hr]
  cases enc
  · have e : 17 - (1 + i) - 1 = 15 - i := by omega
    simp [subkeyOf, e]
  · simp [subkeyOf]

/-- R100 -/
theorem desBlock_isBlock (sk : Vector Subkey 16) (enc : Bool) (b : Block) :
    IsBlock sk enc b (desBlock sk enc b) (desEvents sk enc b) := by
  have hlen : (subkeyOrder sk enc).length = 16 := by simp [subkeyOrder]
  obtain ⟨L, R, hL, hR, h, hf, he⟩ :=
    feistel_spec (subkeyOrder sk enc) 1 (initialHalves b).1 (initialHalves b).2
  rw [hlen] at h hf he
  refine ⟨L, R, fun i => expand (R i), fun i => substitute (expand (R i) ^^^ (subkeyOrder sk enc).getD i 0),
    fun i => roundF (R i) ((subkeyOrder sk enc).getD i 0), ?_, ?_, ?_, ?_⟩
  · rw [hL, hR]
    have e := subseq_append_subseq (a := 32) (b := 32) (permute 64 ipTable b) rfl
    rw [show initialHalves b = (subseq (permute 64 ipTable b) 1 32, subseq (permute 64 ipTable b) (32 + 1) 32) from rfl, e]
    exact permute_selects _ _ rfl
  · intro i hi
    refine ⟨?_, h i hi⟩
    rw [← subkeyOrder_getD sk enc i hi]
    exact roundF_isRound _ _
  · have e : desBlock sk enc b = permute 64 fpTable (R 16 ++ L 16 : Block) := by
      rw [desBlock, show initialHalves b = ((initialHalves b).1, (initialHalves b).2) from rfl, hf]
    rw [e]
    exact permute_selects _ _ rfl
  · rw [desEvents, show initialHalves b = ((initialHalves b).1, (initialHalves b).2) from rfl, he]
    apply List.map_congr_left
    intro i _
    rw [roundEvent, Nat.add_comm 1 i]

/-- The padding check in numbers (R107). -/
theorem paddingOk_iff (p : Block) : paddingOk p = true ↔ PaddingValid p := by
  have h7 : byteNat p 7 = (byteOf p 7).toNat := (byteOf_toNat p 7).symm
  simp only [paddingOk, PaddingValid, h7, Bool.and_eq_true, decide_eq_true_eq, List.all_eq_true, List.mem_range,
    Bool.or_eq_true, beq_iff_eq, and_assoc]
  refine and_congr_right fun _ => and_congr_right fun _ => forall₂_congr fun k _ => ?_
  have hk : byteNat p k = (byteOf p k).toNat := (byteOf_toNat p k).symm
  rw [hk, ← BitVec.toNat_inj]
  omega

end Sys2Proof.Machine
end

