-- ==== Sys2Proof/Laws/Decode.lean ====
section
/-! SUPPORT. The opcode map, row by row, against the sets of legal opcodes and arguments, and a word from its fields
(spec/30_encoding.md rules R60, R61, R63). -/

namespace Sys2Proof.Machine

/-- R60: a word is its three fields. -/
theorem wordOfFields_fields (w : Word) : wordOfFields (rsvField w) (argField w) (opField w) = w := by
  apply BitVec.eq_of_toNat_eq
  have step : ∀ (n m : Nat) (a : BitVec n) (b : BitVec m), (a ++ b).toNat = a.toNat * 2 ^ m + b.toNat := by
    intro n m a b
    rw [BitVec.toNat_append, Nat.shiftLeft_eq, Nat.mul_comm, ← Nat.two_pow_add_eq_or_of_lt b.isLt, Nat.mul_comm]
  have := w.isLt
  rw [wordOfFields, step, step]
  simp only [opField, argField, rsvField, BitVec.extractLsb'_toNat, Nat.shiftRight_eq_div_pow]
  omega

/-- R61's legal set, computed. -/
def legalArgBool (op : BitVec 8) (arg : BitVec 4) : Bool :=
  if op = 0x01 ∨ op = 0x03 ∨ op = 0x0A then true
  else if op = 0x08 then decide (arg.toNat ≤ 5)
  else if op = 0x09 ∨ op = 0x22 then decide (arg.toNat ≤ 7)
  else if op = 0x30 then decide (arg.toNat ≤ 1)
  else decide (arg = 0)

theorem legalArgBool_iff (op : BitVec 8) (arg : BitVec 4) : legalArgBool op arg = true ↔ legalArg op arg := by
  unfold legalArgBool legalArg
  repeat' split
  all_goals simp

/-- The opcode map agrees with the legal sets at an opcode and an argument. -/
def rowAgrees (op : BitVec 8) (arg : BitVec 4) : Bool :=
  match opcodeMap.find? (fun row => row.op == op) with
  | none => decide (op ∉ legalOpcodes)
  | some row =>
    decide (op ∈ legalOpcodes) && (decide (arg.toNat ≤ row.maxArg) == legalArgBool op arg)
      && (decide (row.maxArg < arg.toNat)
        || ((row.build arg).wellFormed && decide ((row.build arg).op = op) && decide ((row.build arg).arg = arg)))

theorem rowAgrees_all : ∀ (op : BitVec 8) (arg : BitVec 4), rowAgrees op arg = true := by decide +kernel

/-- R63: no row has an illegal opcode. -/
theorem row_none {op : BitVec 8} (h : opcodeMap.find? (fun row => row.op == op) = none) : op ∉ legalOpcodes := by
  have := rowAgrees_all op 0
  rw [rowAgrees, h] at this
  exact of_decide_eq_true this

/-- R61, R63: a row's opcode is legal, its argument bound is the legal set, and within it the row builds the well-formed
command with that opcode and argument. -/
theorem row_some {op : BitVec 8} {row : OpcodeRow} (h : opcodeMap.find? (fun row => row.op == op) = some row)
    (arg : BitVec 4) :
    op ∈ legalOpcodes ∧ (arg.toNat ≤ row.maxArg ↔ legalArg op arg) ∧
      (arg.toNat ≤ row.maxArg →
        (row.build arg).wellFormed = true ∧ (row.build arg).op = op ∧ (row.build arg).arg = arg) := by
  have := rowAgrees_all op arg
  rw [rowAgrees, h] at this
  simp only [Bool.and_eq_true, Bool.or_eq_true, decide_eq_true_eq, beq_iff_eq] at this
  obtain ⟨⟨h1, h2⟩, h3⟩ := this
  refine ⟨h1, ?_, fun hle => ?_⟩
  · rw [← legalArgBool_iff, ← h2, decide_eq_true_eq]
  · obtain h3 | ⟨⟨h4, h5⟩, h6⟩ := h3
    · omega
    · exact ⟨h4, h5, h6⟩

/-- R64 -/
theorem decode_of_illegal {w : Word} (h : opField w ∉ legalOpcodes) : decode w = .error .illegal := by
  unfold decode
  split
  · exact absurd (row_some ‹_› 0).1 h
  · rfl

/-- R65: a word with a legal opcode is rejected or is the command of its row. -/
theorem decode_of_legal {w : Word} (h : opField w ∈ legalOpcodes) :
    ((rsvField w ≠ 0 ∨ ¬ legalArg (opField w) (argField w)) ∧ decode w = .error .badArg) ∨
    (rsvField w = 0 ∧ legalArg (opField w) (argField w) ∧
      ∃ i : Instr, decode w = .ok i ∧ i.wellFormed = true ∧ i.op = opField w ∧ i.arg = argField w) := by
  unfold decode
  split
  · rename_i row hrow
    obtain ⟨-, hlegal, hbuild⟩ := row_some hrow (argField w)
    unfold decodeRow
    by_cases h0 : rsvField w = 0
    · by_cases ha : (argField w).toNat ≤ row.maxArg
      · obtain ⟨h1, h2, h3⟩ := hbuild ha
        exact .inr ⟨h0, hlegal.1 ha, _, by rw [if_pos h0, if_pos ha], h1, h2, h3⟩
      · exact .inl ⟨.inr fun hl => ha (hlegal.2 hl), by rw [if_pos h0, if_neg ha]⟩
    · exact .inl ⟨.inl h0, by rw [if_neg h0]⟩
  · exact absurd h (row_none ‹_›)

end Sys2Proof.Machine
end

