-- ==== Sys2Proof/Laws/State.lean ====
section
/-! SUPPORT. What each update of the state leaves in each field: one lemma a field, so that no later proof unfolds an
update. -/

namespace Sys2Proof.Machine

/-! ### `done(code)` (R137) -/

@[simp] theorem complete_irqEn (code : ErrCode) (s : State) : (complete code s).irqEn = s.irqEn := rfl
@[simp] theorem complete_traceEn (code : ErrCode) (s : State) : (complete code s).traceEn = s.traceEn := rfl
@[simp] theorem complete_busy (code : ErrCode) (s : State) : (complete code s).busy = false := rfl
@[simp] theorem complete_done (code : ErrCode) (s : State) : (complete code s).done = true := rfl
@[simp] theorem complete_busyViol (code : ErrCode) (s : State) : (complete code s).busyViol = s.busyViol := rfl
@[simp] theorem complete_err (code : ErrCode) (s : State) : (complete code s).err = code := rfl
@[simp] theorem complete_cmd (code : ErrCode) (s : State) : (complete code s).cmd = s.cmd := rfl
@[simp] theorem complete_nbytes (code : ErrCode) (s : State) : (complete code s).nbytes = s.nbytes := rfl
@[simp] theorem complete_key (code : ErrCode) (s : State) : (complete code s).key = s.key := rfl
@[simp] theorem complete_din (code : ErrCode) (s : State) : (complete code s).din = s.din := rfl
@[simp] theorem complete_dout (code : ErrCode) (s : State) : (complete code s).dout = s.dout := rfl
@[simp] theorem complete_chain (code : ErrCode) (s : State) : (complete code s).chain = s.chain := rfl
@[simp] theorem complete_dhkey (code : ErrCode) (s : State) : (complete code s).dhkey = s.dhkey := rfl
@[simp] theorem complete_p (code : ErrCode) (s : State) : (complete code s).p = s.p := rfl
@[simp] theorem complete_g (code : ErrCode) (s : State) : (complete code s).g = s.g := rfl
@[simp] theorem complete_pub (code : ErrCode) (s : State) : (complete code s).pub = s.pub := rfl
@[simp] theorem complete_peer (code : ErrCode) (s : State) : (complete code s).peer = s.peer := rfl
@[simp] theorem complete_mx (code : ErrCode) (s : State) : (complete code s).mx = s.mx := rfl
@[simp] theorem complete_me (code : ErrCode) (s : State) : (complete code s).me = s.me := rfl
@[simp] theorem complete_mm (code : ErrCode) (s : State) : (complete code s).mm = s.mm := rfl
@[simp] theorem complete_mr (code : ErrCode) (s : State) : (complete code s).mr = s.mr := rfl
@[simp] theorem complete_sk (code : ErrCode) (s : State) : (complete code s).sk = s.sk := rfl
@[simp] theorem complete_keyValid (code : ErrCode) (s : State) : (complete code s).keyValid = s.keyValid := rfl
@[simp] theorem complete_mode (code : ErrCode) (s : State) : (complete code s).mode = s.mode := rfl
@[simp] theorem complete_dhKeyed (code : ErrCode) (s : State) : (complete code s).dhKeyed = s.dhKeyed := rfl
@[simp] theorem complete_dhkeyValid (code : ErrCode) (s : State) : (complete code s).dhkeyValid = s.dhkeyValid := rfl
@[simp] theorem complete_priv (code : ErrCode) (s : State) : (complete code s).priv = s.priv := rfl
@[simp] theorem complete_ssec (code : ErrCode) (s : State) : (complete code s).ssec = s.ssec := rfl
@[simp] theorem complete_psess (code : ErrCode) (s : State) : (complete code s).psess = s.psess := rfl
@[simp] theorem complete_pend (code : ErrCode) (s : State) : (complete code s).pend = s.pend := rfl
@[simp] theorem complete_ptrace (code : ErrCode) (s : State) : (complete code s).ptrace = s.ptrace := rfl
@[simp] theorem complete_trace (code : ErrCode) (s : State) : (complete code s).trace = s.trace := rfl
@[simp] theorem complete_draw (code : ErrCode) (s : State) : (complete code s).draw = s.draw := rfl
@[simp] theorem complete_lastDraw (code : ErrCode) (s : State) : (complete code s).lastDraw = s.lastDraw := rfl
@[simp] theorem complete_busReads (code : ErrCode) (s : State) : (complete code s).busReads = s.busReads := rfl
@[simp] theorem complete_schedule (code : ErrCode) (s : State) : (complete code s).schedule = s.schedule := rfl

/-! ### `raise Error(code)` (R138) -/

@[simp] theorem raiseError_irqEn (code : ErrCode) (s : State) : (raiseError code s).irqEn = s.irqEn := rfl
@[simp] theorem raiseError_traceEn (code : ErrCode) (s : State) : (raiseError code s).traceEn = s.traceEn := rfl
@[simp] theorem raiseError_busy (code : ErrCode) (s : State) : (raiseError code s).busy = false := rfl
@[simp] theorem raiseError_done (code : ErrCode) (s : State) : (raiseError code s).done = true := rfl
@[simp] theorem raiseError_busyViol (code : ErrCode) (s : State) : (raiseError code s).busyViol = s.busyViol := rfl
@[simp] theorem raiseError_err (code : ErrCode) (s : State) : (raiseError code s).err = code := rfl
@[simp] theorem raiseError_cmd (code : ErrCode) (s : State) : (raiseError code s).cmd = s.cmd := rfl
@[simp] theorem raiseError_nbytes (code : ErrCode) (s : State) : (raiseError code s).nbytes = s.nbytes := rfl
@[simp] theorem raiseError_key (code : ErrCode) (s : State) : (raiseError code s).key = s.key := rfl
@[simp] theorem raiseError_din (code : ErrCode) (s : State) : (raiseError code s).din = s.din := rfl
@[simp] theorem raiseError_dout (code : ErrCode) (s : State) : (raiseError code s).dout = s.dout := rfl
@[simp] theorem raiseError_chain (code : ErrCode) (s : State) : (raiseError code s).chain = s.chain := rfl
@[simp] theorem raiseError_dhkey (code : ErrCode) (s : State) : (raiseError code s).dhkey = s.dhkey := rfl
@[simp] theorem raiseError_p (code : ErrCode) (s : State) : (raiseError code s).p = s.p := rfl
@[simp] theorem raiseError_g (code : ErrCode) (s : State) : (raiseError code s).g = s.g := rfl
@[simp] theorem raiseError_pub (code : ErrCode) (s : State) : (raiseError code s).pub = s.pub := rfl
@[simp] theorem raiseError_peer (code : ErrCode) (s : State) : (raiseError code s).peer = s.peer := rfl
@[simp] theorem raiseError_mx (code : ErrCode) (s : State) : (raiseError code s).mx = s.mx := rfl
@[simp] theorem raiseError_me (code : ErrCode) (s : State) : (raiseError code s).me = s.me := rfl
@[simp] theorem raiseError_mm (code : ErrCode) (s : State) : (raiseError code s).mm = s.mm := rfl
@[simp] theorem raiseError_mr (code : ErrCode) (s : State) : (raiseError code s).mr = s.mr := rfl
@[simp] theorem raiseError_sk (code : ErrCode) (s : State) : (raiseError code s).sk = s.sk := rfl
@[simp] theorem raiseError_keyValid (code : ErrCode) (s : State) : (raiseError code s).keyValid = s.keyValid := rfl
@[simp] theorem raiseError_mode (code : ErrCode) (s : State) : (raiseError code s).mode = s.mode := rfl
@[simp] theorem raiseError_dhKeyed (code : ErrCode) (s : State) : (raiseError code s).dhKeyed = s.dhKeyed := rfl
@[simp] theorem raiseError_dhkeyValid (code : ErrCode) (s : State) : (raiseError code s).dhkeyValid = s.dhkeyValid := rfl
@[simp] theorem raiseError_priv (code : ErrCode) (s : State) : (raiseError code s).priv = s.priv := rfl
@[simp] theorem raiseError_ssec (code : ErrCode) (s : State) : (raiseError code s).ssec = s.ssec := rfl
@[simp] theorem raiseError_psess (code : ErrCode) (s : State) : (raiseError code s).psess = s.psess := rfl
@[simp] theorem raiseError_pend (code : ErrCode) (s : State) : (raiseError code s).pend = s.pend := rfl
@[simp] theorem raiseError_ptrace (code : ErrCode) (s : State) : (raiseError code s).ptrace = s.ptrace := rfl
@[simp] theorem raiseError_trace (code : ErrCode) (s : State) : (raiseError code s).trace = s.trace := rfl
@[simp] theorem raiseError_draw (code : ErrCode) (s : State) : (raiseError code s).draw = s.draw := rfl
@[simp] theorem raiseError_lastDraw (code : ErrCode) (s : State) : (raiseError code s).lastDraw = s.lastDraw := rfl
@[simp] theorem raiseError_busReads (code : ErrCode) (s : State) : (raiseError code s).busReads = s.busReads := rfl
@[simp] theorem raiseError_schedule (code : ErrCode) (s : State) : (raiseError code s).schedule = s.schedule := rfl

/-! ### trace emission (R150) -/

@[simp] theorem emit_irqEn (evs : List TraceEvent) (s : State) : (emit evs s).irqEn = s.irqEn := rfl
@[simp] theorem emit_traceEn (evs : List TraceEvent) (s : State) : (emit evs s).traceEn = s.traceEn := rfl
@[simp] theorem emit_busy (evs : List TraceEvent) (s : State) : (emit evs s).busy = s.busy := rfl
@[simp] theorem emit_done (evs : List TraceEvent) (s : State) : (emit evs s).done = s.done := rfl
@[simp] theorem emit_busyViol (evs : List TraceEvent) (s : State) : (emit evs s).busyViol = s.busyViol := rfl
@[simp] theorem emit_err (evs : List TraceEvent) (s : State) : (emit evs s).err = s.err := rfl
@[simp] theorem emit_cmd (evs : List TraceEvent) (s : State) : (emit evs s).cmd = s.cmd := rfl
@[simp] theorem emit_nbytes (evs : List TraceEvent) (s : State) : (emit evs s).nbytes = s.nbytes := rfl
@[simp] theorem emit_key (evs : List TraceEvent) (s : State) : (emit evs s).key = s.key := rfl
@[simp] theorem emit_din (evs : List TraceEvent) (s : State) : (emit evs s).din = s.din := rfl
@[simp] theorem emit_dout (evs : List TraceEvent) (s : State) : (emit evs s).dout = s.dout := rfl
@[simp] theorem emit_chain (evs : List TraceEvent) (s : State) : (emit evs s).chain = s.chain := rfl
@[simp] theorem emit_dhkey (evs : List TraceEvent) (s : State) : (emit evs s).dhkey = s.dhkey := rfl
@[simp] theorem emit_p (evs : List TraceEvent) (s : State) : (emit evs s).p = s.p := rfl
@[simp] theorem emit_g (evs : List TraceEvent) (s : State) : (emit evs s).g = s.g := rfl
@[simp] theorem emit_pub (evs : List TraceEvent) (s : State) : (emit evs s).pub = s.pub := rfl
@[simp] theorem emit_peer (evs : List TraceEvent) (s : State) : (emit evs s).peer = s.peer := rfl
@[simp] theorem emit_mx (evs : List TraceEvent) (s : State) : (emit evs s).mx = s.mx := rfl
@[simp] theorem emit_me (evs : List TraceEvent) (s : State) : (emit evs s).me = s.me := rfl
@[simp] theorem emit_mm (evs : List TraceEvent) (s : State) : (emit evs s).mm = s.mm := rfl
@[simp] theorem emit_mr (evs : List TraceEvent) (s : State) : (emit evs s).mr = s.mr := rfl
@[simp] theorem emit_sk (evs : List TraceEvent) (s : State) : (emit evs s).sk = s.sk := rfl
@[simp] theorem emit_keyValid (evs : List TraceEvent) (s : State) : (emit evs s).keyValid = s.keyValid := rfl
@[simp] theorem emit_mode (evs : List TraceEvent) (s : State) : (emit evs s).mode = s.mode := rfl
@[simp] theorem emit_dhKeyed (evs : List TraceEvent) (s : State) : (emit evs s).dhKeyed = s.dhKeyed := rfl
@[simp] theorem emit_dhkeyValid (evs : List TraceEvent) (s : State) : (emit evs s).dhkeyValid = s.dhkeyValid := rfl
@[simp] theorem emit_priv (evs : List TraceEvent) (s : State) : (emit evs s).priv = s.priv := rfl
@[simp] theorem emit_ssec (evs : List TraceEvent) (s : State) : (emit evs s).ssec = s.ssec := rfl
@[simp] theorem emit_psess (evs : List TraceEvent) (s : State) : (emit evs s).psess = s.psess := rfl
@[simp] theorem emit_pend (evs : List TraceEvent) (s : State) : (emit evs s).pend = s.pend := rfl
@[simp] theorem emit_ptrace (evs : List TraceEvent) (s : State) : (emit evs s).ptrace = s.ptrace := rfl
@[simp] theorem emit_trace (evs : List TraceEvent) (s : State) : (emit evs s).trace = if s.ptrace then s.trace ++ evs else s.trace := rfl
@[simp] theorem emit_draw (evs : List TraceEvent) (s : State) : (emit evs s).draw = s.draw := rfl
@[simp] theorem emit_lastDraw (evs : List TraceEvent) (s : State) : (emit evs s).lastDraw = s.lastDraw := rfl
@[simp] theorem emit_busReads (evs : List TraceEvent) (s : State) : (emit evs s).busReads = s.busReads := rfl
@[simp] theorem emit_schedule (evs : List TraceEvent) (s : State) : (emit evs s).schedule = s.schedule := rfl

/-! ### a CMD write while idle (R23) -/

@[simp] theorem issue_irqEn (w : Word) (s : State) : (issue w s).irqEn = s.irqEn := rfl
@[simp] theorem issue_traceEn (w : Word) (s : State) : (issue w s).traceEn = s.traceEn := rfl
@[simp] theorem issue_busy (w : Word) (s : State) : (issue w s).busy = true := rfl
@[simp] theorem issue_done (w : Word) (s : State) : (issue w s).done = s.done := rfl
@[simp] theorem issue_busyViol (w : Word) (s : State) : (issue w s).busyViol = s.busyViol := rfl
@[simp] theorem issue_err (w : Word) (s : State) : (issue w s).err = s.err := rfl
@[simp] theorem issue_cmd (w : Word) (s : State) : (issue w s).cmd = w := rfl
@[simp] theorem issue_nbytes (w : Word) (s : State) : (issue w s).nbytes = s.nbytes := rfl
@[simp] theorem issue_key (w : Word) (s : State) : (issue w s).key = s.key := rfl
@[simp] theorem issue_din (w : Word) (s : State) : (issue w s).din = s.din := rfl
@[simp] theorem issue_dout (w : Word) (s : State) : (issue w s).dout = s.dout := rfl
@[simp] theorem issue_chain (w : Word) (s : State) : (issue w s).chain = s.chain := rfl
@[simp] theorem issue_dhkey (w : Word) (s : State) : (issue w s).dhkey = s.dhkey := rfl
@[simp] theorem issue_p (w : Word) (s : State) : (issue w s).p = s.p := rfl
@[simp] theorem issue_g (w : Word) (s : State) : (issue w s).g = s.g := rfl
@[simp] theorem issue_pub (w : Word) (s : State) : (issue w s).pub = s.pub := rfl
@[simp] theorem issue_peer (w : Word) (s : State) : (issue w s).peer = s.peer := rfl
@[simp] theorem issue_mx (w : Word) (s : State) : (issue w s).mx = s.mx := rfl
@[simp] theorem issue_me (w : Word) (s : State) : (issue w s).me = s.me := rfl
@[simp] theorem issue_mm (w : Word) (s : State) : (issue w s).mm = s.mm := rfl
@[simp] theorem issue_mr (w : Word) (s : State) : (issue w s).mr = s.mr := rfl
@[simp] theorem issue_sk (w : Word) (s : State) : (issue w s).sk = s.sk := rfl
@[simp] theorem issue_keyValid (w : Word) (s : State) : (issue w s).keyValid = s.keyValid := rfl
@[simp] theorem issue_mode (w : Word) (s : State) : (issue w s).mode = s.mode := rfl
@[simp] theorem issue_dhKeyed (w : Word) (s : State) : (issue w s).dhKeyed = s.dhKeyed := rfl
@[simp] theorem issue_dhkeyValid (w : Word) (s : State) : (issue w s).dhkeyValid = s.dhkeyValid := rfl
@[simp] theorem issue_priv (w : Word) (s : State) : (issue w s).priv = s.priv := rfl
@[simp] theorem issue_ssec (w : Word) (s : State) : (issue w s).ssec = s.ssec := rfl
@[simp] theorem issue_psess (w : Word) (s : State) : (issue w s).psess = s.psess := rfl
@[simp] theorem issue_pend (w : Word) (s : State) : (issue w s).pend = w := rfl
@[simp] theorem issue_ptrace (w : Word) (s : State) : (issue w s).ptrace = s.traceEn := rfl
@[simp] theorem issue_trace (w : Word) (s : State) : (issue w s).trace = s.trace := rfl
@[simp] theorem issue_draw (w : Word) (s : State) : (issue w s).draw = s.draw := rfl
@[simp] theorem issue_lastDraw (w : Word) (s : State) : (issue w s).lastDraw = s.lastDraw := rfl
@[simp] theorem issue_busReads (w : Word) (s : State) : (issue w s).busReads = s.busReads := rfl
@[simp] theorem issue_schedule (w : Word) (s : State) : (issue w s).schedule = s.schedule := rfl

/-! ### a read value delivered (R42) -/

@[simp] theorem deliver_irqEn (v : Word) (s : State) : (deliver v s).irqEn = s.irqEn := rfl
@[simp] theorem deliver_traceEn (v : Word) (s : State) : (deliver v s).traceEn = s.traceEn := rfl
@[simp] theorem deliver_busy (v : Word) (s : State) : (deliver v s).busy = s.busy := rfl
@[simp] theorem deliver_done (v : Word) (s : State) : (deliver v s).done = s.done := rfl
@[simp] theorem deliver_busyViol (v : Word) (s : State) : (deliver v s).busyViol = s.busyViol := rfl
@[simp] theorem deliver_err (v : Word) (s : State) : (deliver v s).err = s.err := rfl
@[simp] theorem deliver_cmd (v : Word) (s : State) : (deliver v s).cmd = s.cmd := rfl
@[simp] theorem deliver_nbytes (v : Word) (s : State) : (deliver v s).nbytes = s.nbytes := rfl
@[simp] theorem deliver_key (v : Word) (s : State) : (deliver v s).key = s.key := rfl
@[simp] theorem deliver_din (v : Word) (s : State) : (deliver v s).din = s.din := rfl
@[simp] theorem deliver_dout (v : Word) (s : State) : (deliver v s).dout = s.dout := rfl
@[simp] theorem deliver_chain (v : Word) (s : State) : (deliver v s).chain = s.chain := rfl
@[simp] theorem deliver_dhkey (v : Word) (s : State) : (deliver v s).dhkey = s.dhkey := rfl
@[simp] theorem deliver_p (v : Word) (s : State) : (deliver v s).p = s.p := rfl
@[simp] theorem deliver_g (v : Word) (s : State) : (deliver v s).g = s.g := rfl
@[simp] theorem deliver_pub (v : Word) (s : State) : (deliver v s).pub = s.pub := rfl
@[simp] theorem deliver_peer (v : Word) (s : State) : (deliver v s).peer = s.peer := rfl
@[simp] theorem deliver_mx (v : Word) (s : State) : (deliver v s).mx = s.mx := rfl
@[simp] theorem deliver_me (v : Word) (s : State) : (deliver v s).me = s.me := rfl
@[simp] theorem deliver_mm (v : Word) (s : State) : (deliver v s).mm = s.mm := rfl
@[simp] theorem deliver_mr (v : Word) (s : State) : (deliver v s).mr = s.mr := rfl
@[simp] theorem deliver_sk (v : Word) (s : State) : (deliver v s).sk = s.sk := rfl
@[simp] theorem deliver_keyValid (v : Word) (s : State) : (deliver v s).keyValid = s.keyValid := rfl
@[simp] theorem deliver_mode (v : Word) (s : State) : (deliver v s).mode = s.mode := rfl
@[simp] theorem deliver_dhKeyed (v : Word) (s : State) : (deliver v s).dhKeyed = s.dhKeyed := rfl
@[simp] theorem deliver_dhkeyValid (v : Word) (s : State) : (deliver v s).dhkeyValid = s.dhkeyValid := rfl
@[simp] theorem deliver_priv (v : Word) (s : State) : (deliver v s).priv = s.priv := rfl
@[simp] theorem deliver_ssec (v : Word) (s : State) : (deliver v s).ssec = s.ssec := rfl
@[simp] theorem deliver_psess (v : Word) (s : State) : (deliver v s).psess = s.psess := rfl
@[simp] theorem deliver_pend (v : Word) (s : State) : (deliver v s).pend = s.pend := rfl
@[simp] theorem deliver_ptrace (v : Word) (s : State) : (deliver v s).ptrace = s.ptrace := rfl
@[simp] theorem deliver_trace (v : Word) (s : State) : (deliver v s).trace = s.trace := rfl
@[simp] theorem deliver_draw (v : Word) (s : State) : (deliver v s).draw = s.draw := rfl
@[simp] theorem deliver_lastDraw (v : Word) (s : State) : (deliver v s).lastDraw = s.lastDraw := rfl
@[simp] theorem deliver_busReads (v : Word) (s : State) : (deliver v s).busReads = s.busReads ++ [v] := rfl
@[simp] theorem deliver_schedule (v : Word) (s : State) : (deliver v s).schedule = s.schedule := rfl

/-! ### a write of CTRL (R20) -/

@[simp] theorem writeCtrl_irqEn (v : Word) (s : State) : (writeCtrl v s).irqEn = v.getLsbD 0 := rfl
@[simp] theorem writeCtrl_traceEn (v : Word) (s : State) : (writeCtrl v s).traceEn = v.getLsbD 1 := rfl
@[simp] theorem writeCtrl_busy (v : Word) (s : State) : (writeCtrl v s).busy = s.busy := rfl
@[simp] theorem writeCtrl_done (v : Word) (s : State) : (writeCtrl v s).done = s.done := rfl
@[simp] theorem writeCtrl_busyViol (v : Word) (s : State) : (writeCtrl v s).busyViol = s.busyViol := rfl
@[simp] theorem writeCtrl_err (v : Word) (s : State) : (writeCtrl v s).err = s.err := rfl
@[simp] theorem writeCtrl_cmd (v : Word) (s : State) : (writeCtrl v s).cmd = s.cmd := rfl
@[simp] theorem writeCtrl_nbytes (v : Word) (s : State) : (writeCtrl v s).nbytes = s.nbytes := rfl
@[simp] theorem writeCtrl_key (v : Word) (s : State) : (writeCtrl v s).key = s.key := rfl
@[simp] theorem writeCtrl_din (v : Word) (s : State) : (writeCtrl v s).din = s.din := rfl
@[simp] theorem writeCtrl_dout (v : Word) (s : State) : (writeCtrl v s).dout = s.dout := rfl
@[simp] theorem writeCtrl_chain (v : Word) (s : State) : (writeCtrl v s).chain = s.chain := rfl
@[simp] theorem writeCtrl_dhkey (v : Word) (s : State) : (writeCtrl v s).dhkey = s.dhkey := rfl
@[simp] theorem writeCtrl_p (v : Word) (s : State) : (writeCtrl v s).p = s.p := rfl
@[simp] theorem writeCtrl_g (v : Word) (s : State) : (writeCtrl v s).g = s.g := rfl
@[simp] theorem writeCtrl_pub (v : Word) (s : State) : (writeCtrl v s).pub = s.pub := rfl
@[simp] theorem writeCtrl_peer (v : Word) (s : State) : (writeCtrl v s).peer = s.peer := rfl
@[simp] theorem writeCtrl_mx (v : Word) (s : State) : (writeCtrl v s).mx = s.mx := rfl
@[simp] theorem writeCtrl_me (v : Word) (s : State) : (writeCtrl v s).me = s.me := rfl
@[simp] theorem writeCtrl_mm (v : Word) (s : State) : (writeCtrl v s).mm = s.mm := rfl
@[simp] theorem writeCtrl_mr (v : Word) (s : State) : (writeCtrl v s).mr = s.mr := rfl
@[simp] theorem writeCtrl_sk (v : Word) (s : State) : (writeCtrl v s).sk = s.sk := rfl
@[simp] theorem writeCtrl_keyValid (v : Word) (s : State) : (writeCtrl v s).keyValid = s.keyValid := rfl
@[simp] theorem writeCtrl_mode (v : Word) (s : State) : (writeCtrl v s).mode = s.mode := rfl
@[simp] theorem writeCtrl_dhKeyed (v : Word) (s : State) : (writeCtrl v s).dhKeyed = s.dhKeyed := rfl
@[simp] theorem writeCtrl_dhkeyValid (v : Word) (s : State) : (writeCtrl v s).dhkeyValid = s.dhkeyValid := rfl
@[simp] theorem writeCtrl_priv (v : Word) (s : State) : (writeCtrl v s).priv = s.priv := rfl
@[simp] theorem writeCtrl_ssec (v : Word) (s : State) : (writeCtrl v s).ssec = s.ssec := rfl
@[simp] theorem writeCtrl_psess (v : Word) (s : State) : (writeCtrl v s).psess = s.psess := rfl
@[simp] theorem writeCtrl_pend (v : Word) (s : State) : (writeCtrl v s).pend = s.pend := rfl
@[simp] theorem writeCtrl_ptrace (v : Word) (s : State) : (writeCtrl v s).ptrace = s.ptrace := rfl
@[simp] theorem writeCtrl_trace (v : Word) (s : State) : (writeCtrl v s).trace = s.trace := rfl
@[simp] theorem writeCtrl_draw (v : Word) (s : State) : (writeCtrl v s).draw = s.draw := rfl
@[simp] theorem writeCtrl_lastDraw (v : Word) (s : State) : (writeCtrl v s).lastDraw = s.lastDraw := rfl
@[simp] theorem writeCtrl_busReads (v : Word) (s : State) : (writeCtrl v s).busReads = s.busReads := rfl
@[simp] theorem writeCtrl_schedule (v : Word) (s : State) : (writeCtrl v s).schedule = s.schedule := rfl

/-! ### a write of STATUS (R21) -/

@[simp] theorem writeStatus_irqEn (v : Word) (s : State) : (writeStatus v s).irqEn = s.irqEn := rfl
@[simp] theorem writeStatus_traceEn (v : Word) (s : State) : (writeStatus v s).traceEn = s.traceEn := rfl
@[simp] theorem writeStatus_busy (v : Word) (s : State) : (writeStatus v s).busy = s.busy := rfl
@[simp] theorem writeStatus_done (v : Word) (s : State) : (writeStatus v s).done = (s.done && !v.getLsbD 1) := rfl
@[simp] theorem writeStatus_busyViol (v : Word) (s : State) : (writeStatus v s).busyViol = (s.busyViol && !v.getLsbD 8) := rfl
@[simp] theorem writeStatus_err (v : Word) (s : State) : (writeStatus v s).err = s.err := rfl
@[simp] theorem writeStatus_cmd (v : Word) (s : State) : (writeStatus v s).cmd = s.cmd := rfl
@[simp] theorem writeStatus_nbytes (v : Word) (s : State) : (writeStatus v s).nbytes = s.nbytes := rfl
@[simp] theorem writeStatus_key (v : Word) (s : State) : (writeStatus v s).key = s.key := rfl
@[simp] theorem writeStatus_din (v : Word) (s : State) : (writeStatus v s).din = s.din := rfl
@[simp] theorem writeStatus_dout (v : Word) (s : State) : (writeStatus v s).dout = s.dout := rfl
@[simp] theorem writeStatus_chain (v : Word) (s : State) : (writeStatus v s).chain = s.chain := rfl
@[simp] theorem writeStatus_dhkey (v : Word) (s : State) : (writeStatus v s).dhkey = s.dhkey := rfl
@[simp] theorem writeStatus_p (v : Word) (s : State) : (writeStatus v s).p = s.p := rfl
@[simp] theorem writeStatus_g (v : Word) (s : State) : (writeStatus v s).g = s.g := rfl
@[simp] theorem writeStatus_pub (v : Word) (s : State) : (writeStatus v s).pub = s.pub := rfl
@[simp] theorem writeStatus_peer (v : Word) (s : State) : (writeStatus v s).peer = s.peer := rfl
@[simp] theorem writeStatus_mx (v : Word) (s : State) : (writeStatus v s).mx = s.mx := rfl
@[simp] theorem writeStatus_me (v : Word) (s : State) : (writeStatus v s).me = s.me := rfl
@[simp] theorem writeStatus_mm (v : Word) (s : State) : (writeStatus v s).mm = s.mm := rfl
@[simp] theorem writeStatus_mr (v : Word) (s : State) : (writeStatus v s).mr = s.mr := rfl
@[simp] theorem writeStatus_sk (v : Word) (s : State) : (writeStatus v s).sk = s.sk := rfl
@[simp] theorem writeStatus_keyValid (v : Word) (s : State) : (writeStatus v s).keyValid = s.keyValid := rfl
@[simp] theorem writeStatus_mode (v : Word) (s : State) : (writeStatus v s).mode = s.mode := rfl
@[simp] theorem writeStatus_dhKeyed (v : Word) (s : State) : (writeStatus v s).dhKeyed = s.dhKeyed := rfl
@[simp] theorem writeStatus_dhkeyValid (v : Word) (s : State) : (writeStatus v s).dhkeyValid = s.dhkeyValid := rfl
@[simp] theorem writeStatus_priv (v : Word) (s : State) : (writeStatus v s).priv = s.priv := rfl
@[simp] theorem writeStatus_ssec (v : Word) (s : State) : (writeStatus v s).ssec = s.ssec := rfl
@[simp] theorem writeStatus_psess (v : Word) (s : State) : (writeStatus v s).psess = s.psess := rfl
@[simp] theorem writeStatus_pend (v : Word) (s : State) : (writeStatus v s).pend = s.pend := rfl
@[simp] theorem writeStatus_ptrace (v : Word) (s : State) : (writeStatus v s).ptrace = s.ptrace := rfl
@[simp] theorem writeStatus_trace (v : Word) (s : State) : (writeStatus v s).trace = s.trace := rfl
@[simp] theorem writeStatus_draw (v : Word) (s : State) : (writeStatus v s).draw = s.draw := rfl
@[simp] theorem writeStatus_lastDraw (v : Word) (s : State) : (writeStatus v s).lastDraw = s.lastDraw := rfl
@[simp] theorem writeStatus_busReads (v : Word) (s : State) : (writeStatus v s).busReads = s.busReads := rfl
@[simp] theorem writeStatus_schedule (v : Word) (s : State) : (writeStatus v s).schedule = s.schedule := rfl

/-! ### reset applied (R153) -/

@[simp] theorem applyReset_irqEn (s : State) : (applyReset s).irqEn = false := rfl
@[simp] theorem applyReset_traceEn (s : State) : (applyReset s).traceEn = false := rfl
@[simp] theorem applyReset_busy (s : State) : (applyReset s).busy = false := rfl
@[simp] theorem applyReset_done (s : State) : (applyReset s).done = false := rfl
@[simp] theorem applyReset_busyViol (s : State) : (applyReset s).busyViol = false := rfl
@[simp] theorem applyReset_err (s : State) : (applyReset s).err = .ok := rfl
@[simp] theorem applyReset_cmd (s : State) : (applyReset s).cmd = 0 := rfl
@[simp] theorem applyReset_nbytes (s : State) : (applyReset s).nbytes = 0 := rfl
@[simp] theorem applyReset_key (s : State) : (applyReset s).key = 0 := rfl
@[simp] theorem applyReset_din (s : State) : (applyReset s).din = 0 := rfl
@[simp] theorem applyReset_dout (s : State) : (applyReset s).dout = 0 := rfl
@[simp] theorem applyReset_chain (s : State) : (applyReset s).chain = 0 := rfl
@[simp] theorem applyReset_dhkey (s : State) : (applyReset s).dhkey = 0 := rfl
@[simp] theorem applyReset_p (s : State) : (applyReset s).p = 0 := rfl
@[simp] theorem applyReset_g (s : State) : (applyReset s).g = 0 := rfl
@[simp] theorem applyReset_pub (s : State) : (applyReset s).pub = 0 := rfl
@[simp] theorem applyReset_peer (s : State) : (applyReset s).peer = 0 := rfl
@[simp] theorem applyReset_mx (s : State) : (applyReset s).mx = 0 := rfl
@[simp] theorem applyReset_me (s : State) : (applyReset s).me = 0 := rfl
@[simp] theorem applyReset_mm (s : State) : (applyReset s).mm = 0 := rfl
@[simp] theorem applyReset_mr (s : State) : (applyReset s).mr = 0 := rfl
@[simp] theorem applyReset_sk (s : State) : (applyReset s).sk = Vector.replicate 16 0 := rfl
@[simp] theorem applyReset_keyValid (s : State) : (applyReset s).keyValid = false := rfl
@[simp] theorem applyReset_mode (s : State) : (applyReset s).mode = .idle := rfl
@[simp] theorem applyReset_dhKeyed (s : State) : (applyReset s).dhKeyed = false := rfl
@[simp] theorem applyReset_dhkeyValid (s : State) : (applyReset s).dhkeyValid = false := rfl
@[simp] theorem applyReset_priv (s : State) : (applyReset s).priv = 0 := rfl
@[simp] theorem applyReset_ssec (s : State) : (applyReset s).ssec = 0 := rfl
@[simp] theorem applyReset_psess (s : State) : (applyReset s).psess = 0 := rfl
@[simp] theorem applyReset_pend (s : State) : (applyReset s).pend = 0 := rfl
@[simp] theorem applyReset_ptrace (s : State) : (applyReset s).ptrace = false := rfl
@[simp] theorem applyReset_trace (s : State) : (applyReset s).trace = s.trace := rfl
@[simp] theorem applyReset_draw (s : State) : (applyReset s).draw = s.draw := rfl
@[simp] theorem applyReset_lastDraw (s : State) : (applyReset s).lastDraw = s.lastDraw := rfl
@[simp] theorem applyReset_busReads (s : State) : (applyReset s).busReads = s.busReads := rfl
@[simp] theorem applyReset_schedule (s : State) : (applyReset s).schedule = s.schedule := rfl

end Sys2Proof.Machine
end

