-- ==== Sys2Proof/Laws/Exec.lean ====
section
/-! SUPPORT. What a command, a bus transfer and a step can do, said once each: they always answer a next state, and these
are its cases. -/

namespace Sys2Proof.Machine

/-- The CBC checks in order (R139): no key, the wrong chain mode, or the command's effect. -/
theorem cbcChecked_cases (m : ChainMode) (s e : State) :
    (s.keyValid = false ∧ cbcChecked m s e = raiseError .noKey s) ∨
    (s.keyValid = true ∧ s.mode ≠ m ∧ cbcChecked m s e = raiseError .seq s) ∨
    (s.keyValid = true ∧ s.mode = m ∧ cbcChecked m s e = e) := by
  unfold cbcChecked
  cases s.keyValid
  · exact .inl ⟨rfl, rfl⟩
  · by_cases h : s.mode = m
    · exact .inr (.inr ⟨rfl, h, by simp [h]⟩)
    · exact .inr (.inl ⟨rfl, h, by simp [h]⟩)

/-- Every command answers a next state: CSCORE has no fault, and no command is refused. -/
theorem exec_next (i : Instr) (s : State) : ∃ t, exec i s = .next t := by
  cases i <;> exact ⟨_, rfl⟩

/-- Every command completes (R137): BUSY falls and DONE is set. -/
theorem exec_completes (i : Instr) (s t : State) (h : exec i s = .next t) :
    t.busy = false ∧ t.done = true := by
  cases i <;> simp only [exec, execNop, execKeyLoad, execKeyFromDh, execSubkeyRead, execPermute, execSbox, execRoundF,
    execBlockEnc, execBlockDec, execCbcEncInit, execCbcEncBlock, execCbcEncFinal, execCbcDecInit, execCbcDecBlock,
    execCbcDecFinal, execCbcAbort, execDhInit, execDhShared, execDhClear, execModexp, execSoftReset, cbcChecked,
    Host.Outcome.next.injEq] at h <;> subst h <;> (repeat' split) <;> exact ⟨rfl, rfl⟩

/-- No command changes what is scheduled or what the host has read. -/
theorem exec_keeps_host (i : Instr) (s t : State) (h : exec i s = .next t) :
    t.schedule = s.schedule ∧ t.busReads = s.busReads := by
  cases i <;> simp only [exec, execNop, execKeyLoad, execKeyFromDh, execSubkeyRead, execPermute, execSbox, execRoundF,
    execBlockEnc, execBlockDec, execCbcEncInit, execCbcEncBlock, execCbcEncFinal, execCbcDecInit, execCbcDecBlock,
    execCbcDecFinal, execCbcAbort, execDhInit, execDhShared, execDhClear, execModexp, execSoftReset, cbcChecked,
    Host.Outcome.next.injEq] at h <;> subst h <;> (repeat' split) <;> exact ⟨rfl, rfl⟩

/-- What the core's step can be: nothing while idle, the completion of a word that is no command, or the command. -/
theorem coreStep_cases (d : Draw) (s : State) :
    (s.busy = false ∧ coreStep d s = .next s) ∨
    (s.busy = true ∧ ∃ e, decode s.pend = .error e ∧ coreStep d s = .next (rejectWord e s)) ∨
    (s.busy = true ∧ ∃ i, decode s.pend = .ok i ∧ coreStep d s = exec i { s with draw := d }) := by
  unfold coreStep pendingWord
  cases s.busy
  · exact .inl ⟨rfl, rfl⟩
  · cases decode s.pend with
    | error e => exact .inr (.inl ⟨rfl, e, rfl, rfl⟩)
    | ok i => exact .inr (.inr ⟨rfl, i, rfl, rfl⟩)

/-- What a step can be: the core's, a read, a write, or reset. -/
theorem step_cases (s : State) :
    (∃ d rest, s.coreNext d rest ∧ step s = coreStep d { s with schedule := rest }) ∨
    (∃ off d rest, s.schedule = .read off d :: rest ∧ step s = .next (hostRead off d { s with schedule := rest })) ∨
    (∃ off v rest, s.schedule = .write off v :: rest ∧ step s = .next (hostWrite off v { s with schedule := rest })) ∨
    (∃ rest, s.schedule = .reset :: rest ∧ step s = .next (applyReset { s with schedule := rest })) := by
  unfold step nextMove
  cases h : s.schedule with
  | nil =>
    refine .inl ⟨s.lastDraw, [], .inr ⟨h, rfl, rfl⟩, ?_⟩
    have e : { s with schedule := [] } = s := by cases s; simp_all
    rw [e]
  | cons t rest =>
    cases t with
    | core d => exact .inl ⟨d, rest, .inl h, rfl⟩
    | read off d => exact .inr (.inl ⟨off, d, rest, rfl, rfl⟩)
    | write off v => exact .inr (.inr (.inl ⟨off, v, rest, rfl, rfl⟩))
    | reset => exact .inr (.inr (.inr ⟨rest, rfl, rfl⟩))

/-- A step whose turn is the core's is the core's step. -/
theorem step_of_coreNext {s : State} {d : Draw} {rest : List Turn} (h : s.coreNext d rest) :
    step s = coreStep d { s with schedule := rest } := by
  obtain h | ⟨h, rfl, rfl⟩ := h
  · rw [step, nextMove, h]; rfl
  · have e : { s with schedule := [] } = s := by cases s; simp_all
    rw [step, nextMove, h, e]

/-- Every step answers a next state. -/
theorem step_next (s : State) : ∃ t, step s = .next t := by
  obtain ⟨d, rest, -, h⟩ | ⟨off, d, rest, -, h⟩ | ⟨off, v, rest, -, h⟩ | ⟨rest, -, h⟩ := step_cases s
  · obtain ⟨-, h'⟩ | ⟨-, e, -, h'⟩ | ⟨-, i, -, h'⟩ := coreStep_cases d { s with schedule := rest }
    · exact ⟨_, h.trans h'⟩
    · exact ⟨_, h.trans h'⟩
    · obtain ⟨t, ht⟩ := exec_next i { s with schedule := rest, draw := d }
      exact ⟨t, h.trans (h'.trans ht)⟩
  · exact ⟨_, h⟩
  · exact ⟨_, h⟩
  · exact ⟨_, h⟩

/-- One step of a run of the host's core. -/
theorem run_succ {s t : State} (h : step s = .next t) (n : Nat) : core.run (n + 1) s = core.run n t := by
  have h' : Host.Core.step core s = .next t := h
  simp only [Host.Core.run]
  split
  · rename_i e; cases h'.symm.trans e; rfl
  · rename_i e; cases h'.symm.trans e
  · rename_i e; cases h'.symm.trans e

/-- A step uses up the first scheduled move. -/
theorem step_schedule {s t : State} (h : step s = .next t) : t.schedule = s.schedule.tail := by
  obtain ⟨d, rest, hn, h'⟩ | ⟨off, d, rest, hn, h'⟩ | ⟨off, v, rest, hn, h'⟩ | ⟨rest, hn, h'⟩ := step_cases s <;>
    rw [h'] at h
  · have e : s.schedule.tail = rest := by obtain hn | ⟨a, b, -⟩ := hn <;> simp [*]
    rw [e]
    obtain ⟨-, h2⟩ | ⟨-, e, -, h2⟩ | ⟨-, i, -, h2⟩ := coreStep_cases d { s with schedule := rest } <;> rw [h2] at h
    · cases h; rfl
    · cases h; cases e <;> rfl
    · exact (exec_keeps_host _ _ _ h).1
  · cases h; rw [hn]; unfold hostRead; split <;> rfl
  · cases h
    rw [hn]
    unfold hostWrite
    split
    · cases regAt off <;> rfl
    · cases regAt off with
      | big r k => cases r <;> rfl
      | _ => rfl
  · cases h; rw [hn]; rfl

/-- A read leaves a value, the register's or its draw, and changes nothing else (R44, R50, R58). -/
theorem hostRead_cases (off : WordOff) (d : Word) (s : State) :
    ((s.busy = false ∨ readableBusy (regAt off) = true) ∧
      hostRead off d s = { s with busReads := s.busReads ++ [regValue (regAt off) s] }) ∨
    (s.busy = true ∧ readableBusy (regAt off) = false ∧
      hostRead off d s = { s with busReads := s.busReads ++ [d] }) := by
  by_cases h : (s.busy && !readableBusy (regAt off)) = true
  · have h' : s.busy = true ∧ readableBusy (regAt off) = false := by simpa using h
    exact .inr ⟨h'.1, h'.2, by rw [hostRead, if_pos h]; rfl⟩
  · refine .inl ⟨?_, by rw [hostRead, if_neg h]; rfl⟩
    revert h
    cases s.busy <;> simp

/-- A write while BUSY reaches CTRL and STATUS only (R58). -/
theorem hostWrite_busy (off : WordOff) (v : Word) (s : State) (hb : s.busy = true) :
    (regAt off = .ctrl ∧ hostWrite off v s = writeCtrl v s) ∨
    (regAt off = .status ∧ hostWrite off v s = writeStatus v s) ∨
    (regAt off ≠ .ctrl ∧ regAt off ≠ .status ∧ hostWrite off v s = { s with busyViol := true }) := by
  unfold hostWrite
  rw [if_pos hb]
  cases h : regAt off <;> simp [writeBusy]

/-- A write while idle (R44). -/
theorem hostWrite_idle (off : WordOff) (v : Word) (s : State) (hb : s.busy = false) :
    hostWrite off v s = writeIdle (regAt off) v s := by
  simp [hostWrite, hb]

end Sys2Proof.Machine
end

