-- ==== Sys2Proof/Laws/Inverse.lean ====
section
/-! SUPPORT. Decryption undoes encryption (spec/42_round_block.md rule R101): the rounds run backwards, and IP and FP undo
each other (spec/40_cipher_tables.md rule R85). -/

namespace Sys2Proof.Machine

theorem feistel_append (as bs : List Subkey) (lr : Half × Half) :
    feistel (as ++ bs) lr = feistel bs (feistel as lr) := by
  induction as generalizing lr with
  | nil => rfl
  | cons k as ih => exact ih _

/-- The rounds with the subkeys in reverse, from swapped halves, give the first halves swapped. -/
theorem feistel_reverse (ks : List Subkey) (l r : Half) :
    feistel ks.reverse ((feistel ks (l, r)).2, (feistel ks (l, r)).1) = (r, l) := by
  induction ks generalizing l r with
  | nil => rfl
  | cons k ks ih =>
    rw [List.reverse_cons, feistel_append, show feistel (k :: ks) (l, r) = feistel ks (r, l ^^^ roundF r k) from rfl, ih]
    simp [feistel]

/-- R85: two 64-bit tables that undo each other. -/
theorem permute_permute (T U : List Nat) (hT : T.length = 64) (hU : U.length = 64)
    (h : ∀ j < 64, 1 ≤ U.getD j 0 ∧ U.getD j 0 ≤ 64 ∧ T.getD (U.getD j 0 - 1) 0 = j + 1) (b : Block) :
    permute 64 U (permute 64 T b) = b := by
  apply BitVec.eq_of_getMsbD_eq
  intro j hj
  obtain ⟨h1, h2, h3⟩ := h j hj
  rw [getMsbD_permute U _ hU j hj, bitAt, getMsbD_permute T _ hT _ (by omega), h3, bitAt]
  rfl

theorem permute_fp_ip (b : Block) : permute 64 fpTable (permute 64 ipTable b) = b :=
  permute_permute ipTable fpTable rfl rfl (by decide) b

theorem permute_ip_fp (b : Block) : permute 64 ipTable (permute 64 fpTable b) = b :=
  permute_permute fpTable ipTable rfl rfl (by decide) b

theorem initialHalves_fp (x y : Half) : initialHalves (permute 64 fpTable (x ++ y : Block)) = (x, y) := by
  have hx := x.isLt
  have hy := y.isLt
  unfold initialHalves
  rw [permute_ip_fp]
  simp only [Prod.mk.injEq]
  constructor <;>
  · apply BitVec.eq_of_toNat_eq
    rw [subseq, BitVec.extractLsb'_toNat, append_words_toNat, Nat.shiftRight_eq_div_pow]
    omega

theorem fp_initialHalves (b : Block) :
    permute 64 fpTable ((initialHalves b).1 ++ (initialHalves b).2 : Block) = b := by
  have e := subseq_append_subseq (a := 32) (b := 32) (permute 64 ipTable b) rfl
  rw [show initialHalves b = (subseq (permute 64 ipTable b) 1 32, subseq (permute 64 ipTable b) (32 + 1) 32) from rfl, e]
  exact permute_fp_ip b

/-- R101 for any list of subkeys: the rounds, then the rounds in reverse. -/
theorem fp_feistel_reverse (ks : List Subkey) (b : Block) :
    let lr := feistel ks (initialHalves b)
    let lr' := feistel ks.reverse (initialHalves (permute 64 fpTable (lr.2 ++ lr.1 : Block)))
    permute 64 fpTable (lr'.2 ++ lr'.1 : Block) = b := by
  intro lr lr'
  have e : lr' = ((initialHalves b).2, (initialHalves b).1) := by
    show feistel ks.reverse (initialHalves _) = _
    rw [initialHalves_fp]
    exact feistel_reverse ks (initialHalves b).1 (initialHalves b).2
  rw [e]
  exact fp_initialHalves b

/-- R100: j = 17 − i walks the subkeys in reverse. -/
theorem subkeyOrder_reverse (sk : Vector Subkey 16) : subkeyOrder sk false = (subkeyOrder sk true).reverse := rfl

/-- R101: `E_K` and `D_K` undo each other. -/
theorem desBlock_not (sk : Vector Subkey 16) (enc : Bool) (b : Block) : desBlock sk (!enc) (desBlock sk enc b) = b := by
  cases enc
  · have h := fp_feistel_reverse (subkeyOrder sk false) b
    rw [subkeyOrder_reverse, List.reverse_reverse, ← subkeyOrder_reverse] at h
    exact h
  · have h := fp_feistel_reverse (subkeyOrder sk true) b
    rw [← subkeyOrder_reverse] at h
    exact h

end Sys2Proof.Machine
end

