-- ==== Sys2Proof/Laws/Payload.lean ====
section
/-! SUPPORT. Byte sequences and blocks, padding, and the chaining loops of the whole-payload functions (spec/43_cbc.md
rules R106–R109). -/

namespace Sys2Proof.Machine

theorem blocksOf_bytesOf_append (b : Block) (l : List Byte) : blocksOf (bytesOf b ++ l) = b :: blocksOf l := by
  unfold blocksOf
  rw [List.length_append, length_bytesOf, show (8 + l.length) / 8 = l.length / 8 + 1 by omega,
    List.range_succ_eq_map, List.map_cons, List.map_map]
  refine congrArg₂ List.cons (blockOfBytes_bytesOf b l) (List.map_congr_left fun t _ => ?_)
  show blockOfBytes ((bytesOf b ++ l).drop (8 * Nat.succ t)) = blockOfBytes (l.drop (8 * t))
  have h : (bytesOf b ++ l).drop 8 = l := by rw [List.drop_append_of_le_length (by simp)]; simp
  rw [show 8 * Nat.succ t = 8 + 8 * t by omega, ← List.drop_drop, h]

theorem blocksOf_flatMap_append (bs : List Block) (l : List Byte) :
    blocksOf (bs.flatMap bytesOf ++ l) = bs ++ blocksOf l := by
  induction bs with
  | nil => rfl
  | cons b bs ih => rw [List.flatMap_cons, List.append_assoc, blocksOf_bytesOf_append, ih]; rfl

theorem blocksOf_flatMap (bs : List Block) : blocksOf (bs.flatMap bytesOf) = bs := by
  have h := blocksOf_flatMap_append bs []
  rwa [List.append_nil, show blocksOf [] = [] from rfl, List.append_nil] at h

theorem length_flatMap_bytesOf (bs : List Block) : (bs.flatMap bytesOf).length = 8 * bs.length := by
  induction bs with
  | nil => rfl
  | cons b bs ih => rw [List.flatMap_cons, List.length_append, ih, length_bytesOf, List.length_cons]; omega

/-- A sequence of whole blocks is its blocks' bytes. -/
theorem flatMap_blocksOf (l : List Byte) (h : l.length % 8 = 0) : (blocksOf l).flatMap bytesOf = l := by
  obtain ⟨k, hk⟩ : ∃ k, l.length = 8 * k := ⟨l.length / 8, by omega⟩
  clear h
  induction k generalizing l with
  | zero =>
    have e : l = [] := List.length_eq_zero_iff.1 hk
    subst e; rfl
  | succ k ih =>
    have e : l = bytesOf (blockOfBytes (l.take 8)) ++ l.drop 8 := by
      rw [bytesOf_blockOfBytes _ (by simp; omega), List.take_append_drop]
    rw [e, blocksOf_bytesOf_append, List.flatMap_cons, ih (l.drop 8) (by simp; omega)]

/-- R106 -/
theorem length_padMessage (m : List Byte) : (padMessage m).length = 8 * (m.length / 8 + 1) := by
  simp [padMessage]; omega

/-- R106, R107: padding is removed again. -/
theorem unpadMessage_padMessage (m : List Byte) : unpadMessage (padMessage m) = some m := by
  have hlen : (padMessage m).length = m.length + (8 - m.length % 8) := by simp [padMessage]
  have hlast : (padMessage m).getD ((padMessage m).length - 1) 0 = BitVec.ofNat 8 (8 - m.length % 8) := by
    rw [hlen, padMessage, List.getD_append_right _ _ _ _ (by omega), List.getD_eq_getElem?_getD,
      List.getElem?_replicate, if_pos (by omega)]
    rfl
  have hn : (BitVec.ofNat 8 (8 - m.length % 8)).toNat = 8 - m.length % 8 := by rw [BitVec.toNat_ofNat]; omega
  unfold unpadMessage
  simp only [hlast, hn]
  simp only [hlen]
  rw [if_neg (by omega), if_pos]
  · simp [padMessage]
  · rw [Nat.add_sub_cancel]; simp [padMessage]

/-- R107: on whole blocks the check reads the last one only. -/
theorem unpadMessage_append (l : List Byte) (hl : l.length % 8 = 0) (p : Block) :
    unpadMessage (l ++ bytesOf p) =
      if paddingOk p then some (l ++ (bytesOf (stripPadding p)).take (8 - (byteOf p 7).toNat)) else none := by
  have hlast : (l ++ bytesOf p).getD ((l ++ bytesOf p).length - 1) 0 = byteOf p 7 := by
    rw [List.length_append, length_bytesOf, List.getD_append_right _ _ _ _ (by omega),
      show l.length + 8 - 1 - l.length = 7 by omega, getD_bytesOf _ _ (by omega)]
  unfold unpadMessage
  simp only [hlast]
  simp only [List.length_append, length_bytesOf]
  generalize hL : (byteOf p 7).toNat = L
  by_cases h1 : L = 0 ∨ L > 8
  · rw [if_pos h1, if_neg]
    refine (not_congr (paddingOk_iff p)).2 ?_
    rintro ⟨a, b, -⟩
    have : byteNat p 7 = L := by rw [byteNat, ← byteOf_toNat, hL]
    omega
  · have hle : l.length ≤ l.length + (8 - L) := by omega
    have e2 : (bytesOf p).take (8 - L) = (bytesOf (stripPadding p)).take (8 - L) := by
      apply List.ext_getElem
      · simp
      · intro k a b
        have hk : k < 8 - L := by simp at a; omega
        simp only [List.getElem_take, bytesOf, List.getElem_map, List.getElem_range]
        rw [stripPadding, byteOf_blockOfFn _ _ (by omega), hL, if_pos hk]
    have e3 : (((bytesOf p).drop (8 - L)).all fun b => b == byteOf p 7) = paddingOk p := by
      rw [Bool.eq_iff_iff, paddingOk]
      simp only [hL, Bool.and_eq_true, decide_eq_true_eq, List.all_eq_true, List.mem_range, Bool.or_eq_true, beq_iff_eq]
      constructor
      · intro h
        refine ⟨⟨by omega, by omega⟩, fun k hk => ?_⟩
        by_cases h9 : k < 8 - L
        · exact .inl h9
        · refine .inr (h _ (List.mem_drop_iff_getElem.2 ⟨k - (8 - L), by simp; omega, ?_⟩))
          simp [bytesOf]; congr 1; omega
      · rintro ⟨-, h⟩ x hx
        obtain ⟨j, hj, rfl⟩ := List.mem_drop_iff_getElem.1 hx
        have hj2 : j + (8 - L) < 8 := by simpa using hj
        simp only [bytesOf, List.getElem_map, List.getElem_range]
        obtain h | h := h (8 - L + j) (by omega)
        · omega
        · exact h
    rw [if_neg h1, show l.length + 8 - L = l.length + (8 - L) by omega, List.drop_append, List.take_append]
    simp only [Nat.add_sub_cancel_left, List.drop_eq_nil_of_le hle, List.nil_append, List.take_of_length_le hle]
    rw [e3, e2]

theorem cbcEncryptBlocks_append (sk : Vector Subkey 16) (as bs : List Block) (prev : Block) :
    cbcEncryptBlocks sk (as ++ bs) prev =
      cbcEncryptBlocks sk as prev ++ cbcEncryptBlocks sk bs ((cbcEncryptBlocks sk as prev).getLastD prev) := by
  induction as generalizing prev with
  | nil => rfl
  | cons a as ih => simp only [List.cons_append, cbcEncryptBlocks, ih]; rw [List.getLastD_cons]

theorem cbcDecryptBlocks_append (sk : Vector Subkey 16) (as bs : List Block) (prev : Block) :
    cbcDecryptBlocks sk (as ++ bs) prev =
      cbcDecryptBlocks sk as prev ++ cbcDecryptBlocks sk bs (as.getLastD prev) := by
  induction as generalizing prev with
  | nil => rfl
  | cons a as ih => simp only [List.cons_append, cbcDecryptBlocks, ih]; rw [List.getLastD_cons]

theorem length_cbcEncryptBlocks (sk : Vector Subkey 16) (bs : List Block) (prev : Block) :
    (cbcEncryptBlocks sk bs prev).length = bs.length := by
  induction bs generalizing prev with
  | nil => rfl
  | cons b bs ih => simp [cbcEncryptBlocks, ih]

/-- R101, R108, R109: the decryption loop undoes the encryption loop. -/
theorem cbcDecryptBlocks_cbcEncryptBlocks (sk : Vector Subkey 16) (bs : List Block) (prev : Block) :
    cbcDecryptBlocks sk (cbcEncryptBlocks sk bs prev) prev = bs := by
  induction bs generalizing prev with
  | nil => rfl
  | cons b bs ih =>
    have h := desBlock_not sk true (b ^^^ prev)
    rw [show (!true) = false from rfl] at h
    simp only [cbcEncryptBlocks, cbcDecryptBlocks, ih, h]
    simp

/-- R106, R114: the last block of a padded message is the block CBC_ENC_FINAL makes. -/
theorem blocksOf_padMessage (bs : List Block) (d : Block) (n : BitVec 4) (hn : n.toNat ≤ 7) :
    blocksOf (padMessage (bs.flatMap bytesOf ++ (bytesOf d).take n.toNat)) = bs ++ [paddedBlock d n] := by
  have hl : (bs.flatMap bytesOf ++ (bytesOf d).take n.toNat).length = 8 * bs.length + n.toNat := by
    rw [List.length_append, length_flatMap_bytesOf, List.length_take, length_bytesOf]; omega
  have hm : (8 * bs.length + n.toNat) % 8 = n.toNat := by omega
  have e : (bytesOf d).take n.toNat ++ List.replicate (8 - n.toNat) (BitVec.ofNat 8 (8 - n.toNat))
      = bytesOf (paddedBlock d n) := by
    apply List.ext_getElem
    · simp; omega
    · intro k h1 h2
      have hk : k < 8 := by simpa using h2
      have e : (bytesOf (paddedBlock d n))[k] = if k < n.toNat then byteOf d k else BitVec.ofNat 8 (8 - n.toNat) := by
        have h := getD_bytesOf (paddedBlock d n) k hk
        rw [List.getD_eq_getElem _ _ h2] at h
        refine h.trans ?_
        rw [paddedBlock, byteOf_blockOfFn _ _ hk]; rfl
      refine Eq.trans ?_ e.symm
      split
      · rw [List.getElem_append_left (by simp; omega)]; simp [bytesOf]
      · rw [List.getElem_append_right (by simp; omega)]; simp
  rw [padMessage]
  simp only [hl, hm]
  rw [List.append_assoc, blocksOf_flatMap_append, e]
  have h := blocksOf_bytesOf_append (paddedBlock d n) []
  rw [List.append_nil] at h
  rw [h]; rfl

end Sys2Proof.Machine
end

