-- ==== Sys2Proof/Laws/PerInstr.lean ====
section
/-! SUPPORT. What holds of every command as a term, one lemma for each constructor. -/

/-- The fields of a word made of fields. -/
theorem Sys2Proof.Laws.fields_of_wordOfFields (r : BitVec 20) (a : BitVec 4) (o : BitVec 8) :
    Sys2Proof.opField (Sys2Proof.wordOfFields r a o) = o ∧ Sys2Proof.argField (Sys2Proof.wordOfFields r a o) = a ∧
    Sys2Proof.rsvField (Sys2Proof.wordOfFields r a o) = r := by
  have hw : (Sys2Proof.wordOfFields r a o).toNat = r.toNat * 4096 + a.toNat * 256 + o.toNat := by
    have h1 : (r ++ a).toNat = r.toNat * 16 + a.toNat := by
      rw [BitVec.toNat_append, Nat.shiftLeft_eq, Nat.mul_comm, ← Nat.two_pow_add_eq_or_of_lt a.isLt, Nat.mul_comm]
    have h2 : (r ++ a ++ o).toNat = (r ++ a).toNat * 256 + o.toNat := by
      rw [BitVec.toNat_append, Nat.shiftLeft_eq, Nat.mul_comm, ← Nat.two_pow_add_eq_or_of_lt o.isLt, Nat.mul_comm]
    rw [Sys2Proof.wordOfFields, h2, h1]
    omega
  have hr := r.isLt
  have ha := a.isLt
  have ho := o.isLt
  refine ⟨BitVec.eq_of_toNat_eq ?_, BitVec.eq_of_toNat_eq ?_, BitVec.eq_of_toNat_eq ?_⟩
  all_goals
    simp only [Sys2Proof.opField, Sys2Proof.argField, Sys2Proof.rsvField, BitVec.extractLsb'_toNat, hw,
      Nat.shiftRight_eq_div_pow]
    omega

/-- The fields of a command's word are its opcode, its argument and a zero RSV (R60) (R63). -/
def Sys2Proof.Laws.EncodeFields.Statement (i : Sys2Proof.Instr) : Prop :=
  Sys2Proof.opField (Sys2Proof.encode i) = i.op ∧ Sys2Proof.argField (Sys2Proof.encode i) = i.arg ∧
  Sys2Proof.rsvField (Sys2Proof.encode i) = 0

theorem Sys2Proof.Laws.EncodeFields.nop : Sys2Proof.Laws.EncodeFields.Statement .nop :=
  Sys2Proof.Laws.fields_of_wordOfFields 0 0 _

theorem Sys2Proof.Laws.EncodeFields.keyLoad (a : BitVec 4) : Sys2Proof.Laws.EncodeFields.Statement (.keyLoad a) :=
  Sys2Proof.Laws.fields_of_wordOfFields 0 a _

theorem Sys2Proof.Laws.EncodeFields.keyFromDh : Sys2Proof.Laws.EncodeFields.Statement .keyFromDh :=
  Sys2Proof.Laws.fields_of_wordOfFields 0 0 _

theorem Sys2Proof.Laws.EncodeFields.subkeyRead (a : BitVec 4) : Sys2Proof.Laws.EncodeFields.Statement (.subkeyRead a) :=
  Sys2Proof.Laws.fields_of_wordOfFields 0 a _

theorem Sys2Proof.Laws.EncodeFields.permute (a : BitVec 4) : Sys2Proof.Laws.EncodeFields.Statement (.permute a) :=
  Sys2Proof.Laws.fields_of_wordOfFields 0 a _

theorem Sys2Proof.Laws.EncodeFields.sbox (a : BitVec 4) : Sys2Proof.Laws.EncodeFields.Statement (.sbox a) :=
  Sys2Proof.Laws.fields_of_wordOfFields 0 a _

theorem Sys2Proof.Laws.EncodeFields.roundF (a : BitVec 4) : Sys2Proof.Laws.EncodeFields.Statement (.roundF a) :=
  Sys2Proof.Laws.fields_of_wordOfFields 0 a _

theorem Sys2Proof.Laws.EncodeFields.blockEnc : Sys2Proof.Laws.EncodeFields.Statement .blockEnc :=
  Sys2Proof.Laws.fields_of_wordOfFields 0 0 _

theorem Sys2Proof.Laws.EncodeFields.blockDec : Sys2Proof.Laws.EncodeFields.Statement .blockDec :=
  Sys2Proof.Laws.fields_of_wordOfFields 0 0 _

theorem Sys2Proof.Laws.EncodeFields.cbcEncInit : Sys2Proof.Laws.EncodeFields.Statement .cbcEncInit :=
  Sys2Proof.Laws.fields_of_wordOfFields 0 0 _

theorem Sys2Proof.Laws.EncodeFields.cbcEncBlock : Sys2Proof.Laws.EncodeFields.Statement .cbcEncBlock :=
  Sys2Proof.Laws.fields_of_wordOfFields 0 0 _

theorem Sys2Proof.Laws.EncodeFields.cbcEncFinal (a : BitVec 4) : Sys2Proof.Laws.EncodeFields.Statement (.cbcEncFinal a) :=
  Sys2Proof.Laws.fields_of_wordOfFields 0 a _

theorem Sys2Proof.Laws.EncodeFields.cbcDecInit : Sys2Proof.Laws.EncodeFields.Statement .cbcDecInit :=
  Sys2Proof.Laws.fields_of_wordOfFields 0 0 _

theorem Sys2Proof.Laws.EncodeFields.cbcDecBlock : Sys2Proof.Laws.EncodeFields.Statement .cbcDecBlock :=
  Sys2Proof.Laws.fields_of_wordOfFields 0 0 _

theorem Sys2Proof.Laws.EncodeFields.cbcDecFinal : Sys2Proof.Laws.EncodeFields.Statement .cbcDecFinal :=
  Sys2Proof.Laws.fields_of_wordOfFields 0 0 _

theorem Sys2Proof.Laws.EncodeFields.cbcAbort : Sys2Proof.Laws.EncodeFields.Statement .cbcAbort :=
  Sys2Proof.Laws.fields_of_wordOfFields 0 0 _

theorem Sys2Proof.Laws.EncodeFields.dhInit (a : BitVec 4) : Sys2Proof.Laws.EncodeFields.Statement (.dhInit a) :=
  Sys2Proof.Laws.fields_of_wordOfFields 0 a _

theorem Sys2Proof.Laws.EncodeFields.dhShared : Sys2Proof.Laws.EncodeFields.Statement .dhShared :=
  Sys2Proof.Laws.fields_of_wordOfFields 0 0 _

theorem Sys2Proof.Laws.EncodeFields.dhClear : Sys2Proof.Laws.EncodeFields.Statement .dhClear :=
  Sys2Proof.Laws.fields_of_wordOfFields 0 0 _

theorem Sys2Proof.Laws.EncodeFields.modexp : Sys2Proof.Laws.EncodeFields.Statement .modexp :=
  Sys2Proof.Laws.fields_of_wordOfFields 0 0 _

theorem Sys2Proof.Laws.EncodeFields.softReset : Sys2Proof.Laws.EncodeFields.Statement .softReset :=
  Sys2Proof.Laws.fields_of_wordOfFields 0 0 _
end

