-- ==== Sys2Proof/Laws/Window.lean ====
section
/-! SUPPORT. The register window: each register's value as a number, the whole register map against the numbers of
Safety.lean, and what a write of a word changes (spec/20_memory.md rules R43–R47, R58). -/

namespace Sys2Proof.Machine

theorem append_toNat {n m : Nat} (a : BitVec n) (b : BitVec m) : (a ++ b).toNat = a.toNat * 2 ^ m + b.toNat := by
  rw [BitVec.toNat_append, Nat.shiftLeft_eq, Nat.mul_comm, ← Nat.two_pow_add_eq_or_of_lt b.isLt, Nat.mul_comm]

theorem ofBool_toNat (b : Bool) : (BitVec.ofBool b).toNat = b.toNat := by cases b <;> rfl

/-- R21 -/
theorem statusWord_toNat (s : State) : (statusWord s).toNat = statusNat s := by
  unfold statusWord statusNat
  simp only [append_toNat, ofBool_toNat, errFlag]
  have e1 : (s.err.code != 0).toNat = if errNat s.err = 0 then 0 else 1 := by cases s.err <;> rfl
  have e2 : s.mode.code.toNat = modeNat s.mode := by cases s.mode <;> rfl
  have z : (0 : BitVec 23).toNat = 0 := rfl
  rw [e1, e2, z]
  omega

/-- R20 -/
theorem ctrlWord_toNat (s : State) : (ctrlWord s).toNat = s.irqEn.toNat + 2 * s.traceEn.toNat := by
  have z : (0 : BitVec 30).toNat = 0 := rfl
  rw [ctrlWord, append_toNat, append_toNat, ofBool_toNat, ofBool_toNat, z]
  omega

/-- R22 -/
theorem errWord_toNat (s : State) : (errWord s).toNat = errNat s.err := by
  unfold errWord
  cases s.err <;> rfl

/-- R24 -/
theorem resultWord_toNat (s : State) : (resultWord s).toNat = s.nbytes.toNat := by
  have := s.nbytes.isLt
  rw [resultWord, BitVec.toNat_setWidth]
  omega

theorem lowReg_toNat (n : Nat) (h : n < 64) (s : State) : (regValue (lowReg (4 * n)) s).toNat = windowNat s (4 * n) := by
  interval_cases n <;> simp [lowReg, windowNat, regValue, ctrlWord_toNat, statusWord_toNat, hiWord_toNat, loWord_toNat,
    errWord_toNat, resultWord_toNat, Config.idValue]

theorem windowNat_page (s : State) (q k : Nat) (h1 : 1 ≤ q) (h2 : q < 16) (hk : k < 64) :
    windowNat s (4 * (64 * q + k)) =
      match bigRegOfPage q with
      | some r => wordOfBig (bigValue r s) k
      | none => 0 := by
  unfold windowNat
  interval_cases q <;> simp only [bigRegOfPage, bigValue]
  all_goals (repeat (first | rw [if_neg (by omega)] | rw [if_pos (by omega)]))
  all_goals first | rfl | (congr 1; omega)

/-- R43: what stands at an offset has the value of the register map. -/
theorem regValue_toNat (off : WordOff) (s : State) : (regValue (regAt off) s).toNat = windowNat s (4 * off.val) := by
  have hlt := off.isLt
  unfold regAt
  split
  · exact lowReg_toNat _ ‹_› s
  · have h := windowNat_page s (off.val / 64) (off.val % 64) (by omega) (by omega) (by omega)
    rw [Nat.div_add_mod] at h
    rw [h]
    cases bigRegOfPage (off.val / 64) with
    | none => rfl
    | some r => exact bigWord_toNat _ _

/-- The moves to come are no register's value. -/
theorem regValue_schedule (r : WinReg) (s : State) (ts : List Turn) :
    regValue r { s with schedule := ts } = regValue r s := by
  cases r with
  | status => simp only [regValue, statusWord, errFlag]
  | big r k => cases r <;> rfl
  | _ => rfl

/-- R44: an idle read, as a step. -/
theorem step_read_idle {s : State} {off : WordOff} {d : Word} {rest : List Turn} (h : s.schedule = .read off d :: rest)
    (hb : s.busy = false) :
    step s = .next { s with schedule := rest, busReads := s.busReads ++ [regValue (regAt off) s] } := by
  rw [step, nextMove, h]
  simp only [turnStep, hostRead]
  rw [if_neg (by simp [hb]), deliver, regValue_schedule]

/-- R44: an idle write, as a step. -/
theorem step_write_idle {s : State} {off : WordOff} {v : Word} {rest : List Turn} (h : s.schedule = .write off v :: rest)
    (hb : s.busy = false) : step s = .next (writeIdle (regAt off) v { s with schedule := rest }) := by
  rw [step, nextMove, h]
  simp only [turnStep]
  rw [hostWrite_idle]
  exact hb

/-- R58: the four offsets that are live while BUSY = 1. -/
theorem regAt_live : ∀ off : WordOff,
    (readableBusy (regAt off) = true ↔ off.val ∈ [0, 1, 2, 4]) ∧ (regAt off = .ctrl ↔ off.val = 1) ∧
      (regAt off = .status ↔ off.val = 2) ∧ (regAt off = .cmd ↔ off.val = 4) := by
  decide +kernel

/-- The registers that hold what the host writes (R43: RW, CTRL apart). -/
def WinReg.holdsHost : WinReg → Bool
  | .key0 | .key1 | .din0 | .din1 => true
  | .big r _ => !(r == .pub || r == .mr)
  | .id | .ctrl | .status | .err | .cmd | .result | .dout0 | .dout1 | .chain0 | .chain1 | .dhkey0 | .dhkey1
  | .unmapped => false

/-- R43: their offsets. -/
theorem holdsHost_regAt : ∀ off : WordOff, (regAt off).holdsHost = true ↔
    (4 * off.val = 0x020 ∨ 4 * off.val = 0x024 ∨ 4 * off.val = 0x030 ∨ 4 * off.val = 0x034 ∨
      (0x100 ≤ 4 * off.val ∧ 4 * off.val ≤ 0x2FC) ∨ (0x400 ≤ 4 * off.val ∧ 4 * off.val ≤ 0x7FC)) := by
  decide +kernel

/-- R43: no two offsets have the same one of them. -/
theorem regAt_injective (off off' : WordOff) (h : (regAt off).holdsHost = true) (he : regAt off' = regAt off) :
    off' = off := by
  have key : ∀ off : WordOff, (regAt off).holdsHost = true → offsetOf (regAt off) = off := by decide +kernel
  rw [← key off' (he ▸ h), ← key off h, he]

/-- R44: a write of any register that takes no writes changes nothing. -/
theorem writeIdle_readOnly (r : WinReg) (h : r.holdsHost = false) (h1 : r ≠ .ctrl) (h2 : r ≠ .status) (h3 : r ≠ .cmd)
    (v : Word) (s : State) : writeIdle r v s = s := by
  cases r with
  | big r k => cases r <;> first | rfl | cases h
  | _ => first | rfl | contradiction

/-- R44: after a write of a register that holds it, that register reads as written and every other as before. -/
theorem regValue_writeIdle (r r' : WinReg) (v : Word) (s : State) (h : r.holdsHost = true) :
    regValue r' (writeIdle r v s) = if r' = r then v else regValue r' s := by
  cases r with
  | key0 | key1 | din0 | din1 =>
    cases r' with
    | big r k => cases r <;> rfl
    | status => rfl
    | _ => simp [writeIdle, regValue]; try rfl
  | big r k =>
    cases r <;> first | (simp [WinReg.holdsHost] at h; done) | skip
    all_goals
      cases r' with
      | big r' k' =>
        cases r' <;> simp only [writeIdle, writeBig, regValue, bigValue, WinReg.big.injEq, reduceCtorEq, false_and,
          if_false, true_and]
        by_cases e : k' = k
        · subst e; simp
        · rw [if_neg e, bigWord_setBigWord_ne _ _ _ _ e]
      | _ => rfl
  | _ => cases h

end Sys2Proof.Machine
end

