-- ==== Sys2Proof/Tests/Slice0.lean ====
section
/-! SUPPORT. Tests. Expected values come from spec/95_test_vectors.md (the vector's name is given) and from the examples of
the rules; command words are written out bit by bit from spec/30_encoding.md: RSV (20 bits), ARG (4), OP (8). At the end,
for every statement with hypotheses, a state and operands that meet them. -/

namespace Sys2Proof.Tests

set_option Elab.async false

open Sys2Proof Sys2Proof.Machine

/-- The state an outcome goes on in; the reset state where it stops. -/
def after (o : Host.Outcome State Fault Refusal) : State :=
  match o with
  | .next t => t
  | .fault _ => State.reset
  | .refused _ => State.reset

/-- The subkeys of KA, V2.1. -/
def skA : Vector Subkey 16 :=
  #v[0x1B02EFFC7072, 0x79AED9DBC9E5, 0x55FC8A42CF99, 0x72ADD6DB351D, 0x7CEC07EB53A8, 0x63A53E507B2F, 0xEC84B7F618BC,
     0xF78A3AC13BFB, 0xE0DBEBEDE781, 0xB1F347BA464F, 0x215FD3DED386, 0x7571F59467E9, 0x97C5D1FABA41, 0x5F43B7F2E73A,
     0xBF918D3D3F0A, 0xCB3D8B0E17F5]

/-- KA is loaded. -/
def keyed : State := { State.reset with key := 0x133457799BBCDFF1, sk := skA, keyValid := true }

/-- KA is loaded and a CBC encryption is in progress. -/
def encrypting (chain : Block) : State := { keyed with mode := .enc, chain := chain }

/-- KA is loaded and a CBC decryption is in progress. -/
def decrypting (chain : Block) : State := { keyed with mode := .dec, chain := chain }

/-- The DH session of X6: p = 23, g = 5, a = 6. -/
def session : State :=
  { State.reset with p := 23, g := 5, psess := 23, priv := 6, pub := 8, dhKeyed := true }

/-- Word `w` has been issued and not yet executed. -/
def issued (w : Word) : State := { State.reset with cmd := w, pend := w, busy := true }

/-! ### Well-formedness: each check refuses -/

theorem test_illformed_permute : (Instr.permute 6).wellFormed = false := by decide
theorem test_illformed_sbox : (Instr.sbox 8).wellFormed = false := by decide
theorem test_illformed_cbcEncFinal : (Instr.cbcEncFinal 8).wellFormed = false := by decide
theorem test_illformed_dhInit : (Instr.dhInit 2).wellFormed = false := by decide
theorem test_wellformed_bounds :
    (Instr.permute 5).wellFormed = true ∧ (Instr.sbox 7).wellFormed = true ∧ (Instr.cbcEncFinal 7).wellFormed = true ∧
      (Instr.dhInit 1).wellFormed = true ∧ (Instr.keyLoad 15).wellFormed = true := by decide

/-! ### Decoding: a word of every command, and the rejections -/

theorem test_decode_nop : decode 0b00000000000000000000_0000_00000000 = .ok .nop := by decide
theorem test_decode_keyLoad : decode 0b00000000000000000000_1000_00000001 = .ok (.keyLoad 8) := by decide
theorem test_decode_keyFromDh : decode 0b00000000000000000000_0000_00000010 = .ok .keyFromDh := by decide
theorem test_decode_subkeyRead : decode 0b00000000000000000000_1111_00000011 = .ok (.subkeyRead 15) := by decide
theorem test_decode_permute : decode 0b00000000000000000000_0011_00001000 = .ok (.permute 3) := by decide
theorem test_decode_sbox : decode 0b00000000000000000000_0000_00001001 = .ok (.sbox 0) := by decide
theorem test_decode_roundF : decode 0b00000000000000000000_1010_00001010 = .ok (.roundF 10) := by decide
theorem test_decode_blockEnc : decode 0b00000000000000000000_0000_00010000 = .ok .blockEnc := by decide
theorem test_decode_blockDec : decode 0b00000000000000000000_0000_00010001 = .ok .blockDec := by decide
theorem test_decode_cbcEncInit : decode 0b00000000000000000000_0000_00100000 = .ok .cbcEncInit := by decide
theorem test_decode_cbcEncBlock : decode 0b00000000000000000000_0000_00100001 = .ok .cbcEncBlock := by decide
theorem test_decode_cbcEncFinal : decode 0b00000000000000000000_0010_00100010 = .ok (.cbcEncFinal 2) := by decide
theorem test_decode_cbcDecInit : decode 0b00000000000000000000_0000_00100100 = .ok .cbcDecInit := by decide
theorem test_decode_cbcDecBlock : decode 0b00000000000000000000_0000_00100101 = .ok .cbcDecBlock := by decide
theorem test_decode_cbcDecFinal : decode 0b00000000000000000000_0000_00100110 = .ok .cbcDecFinal := by decide
theorem test_decode_cbcAbort : decode 0b00000000000000000000_0000_00100111 = .ok .cbcAbort := by decide
theorem test_decode_dhInit : decode 0b00000000000000000000_0001_00110000 = .ok (.dhInit 1) := by decide
theorem test_decode_dhShared : decode 0b00000000000000000000_0000_00110001 = .ok .dhShared := by decide
theorem test_decode_dhClear : decode 0b00000000000000000000_0000_00110010 = .ok .dhClear := by decide
theorem test_decode_modexp : decode 0b00000000000000000000_0000_00111000 = .ok .modexp := by decide
theorem test_decode_softReset : decode 0b00000000000000000000_0000_00111111 = .ok .softReset := by decide

/-- 95_test_vectors.md section 7, and V2 to V6 for the arguments. -/
theorem test_decode_rejects :
    decode 0x00000004 = .error .illegal ∧ decode 0x000000FF = .error .illegal ∧ decode 0x00001004 = .error .illegal ∧
      decode 0x00001010 = .error .badArg ∧ decode 0x00000100 = .error .badArg ∧ decode 0x0000013F = .error .badArg ∧
      decode 0x00000608 = .error .badArg ∧ decode 0x00000809 = .error .badArg ∧ decode 0x00000822 = .error .badArg ∧
      decode 0x00000230 = .error .badArg := by decide

/-- R67's examples. -/
theorem test_encode_examples :
    encode (.keyLoad 8) = 0x00000801 ∧ encode (.subkeyRead 15) = 0x00000F03 ∧ encode (.permute 3) = 0x00000308 ∧
      encode (.sbox 0) = 0x00000009 ∧ encode (.cbcEncFinal 2) = 0x00000222 ∧ encode (.dhInit 1) = 0x00000130 := by decide

theorem test_decodeTableWord :
    decodeTableWord 32 0x00000801 = some (.keyLoad 8) ∧ decodeTableWord 32 0x00000004 = none := by decide

/-! ### Tables (V2.1, V3, V4.1, V4.3) -/

/-- V2.1: the schedule of KA. -/
theorem test_keySchedule : keySchedule 0x133457799BBCDFF1 = skA := by decide +kernel

/-- X7: the 3-byte key. -/
theorem test_keyNormalisation :
    normKey 0x133457FFFFFFFFFF 3 = 0x1334570000000000 ∧ (keySchedule 0x1334570000000000)[0] = 0x000002842050 ∧
      (keySchedule 0x1334570000000000)[15] = 0x800800040194 := by decide +kernel

/-- V4.1: box by box, the inputs 0x00, 0x01, 0x20, 0x21, 0x1B, 0x3F. -/
theorem test_sboxes :
    (List.range' 1 8).map (fun i =>
      [0x00, 0x01, 0x20, 0x21, 0x1B, 0x3F].map (fun g => (sboxLookup i (BitVec.ofNat 6 g)).toNat)) =
      [[14, 0, 4, 15, 5, 13], [15, 3, 0, 13, 9, 9], [10, 13, 13, 1, 11, 12], [7, 13, 10, 3, 10, 14]] ++
      [[2, 14, 4, 11, 9, 3], [12, 10, 9, 4, 11, 13], [4, 13, 1, 6, 15, 12], [13, 1, 7, 2, 14, 11]] := by decide +kernel

/-- V4.3: the columns x, o and f of X1's 16 rounds. -/
def roundsX1 : List (Nat × Nat × Nat) :=
  [(0x7A15557A1555, 0x5C82B597, 0x234AA9BB), (0x75EA5430AA09, 0xF8D03AAE, 0x3CAB87A3),
   (0xE58002BAE853, 0x2710E16F, 0x4D166EB0), (0x5042F8057FA9, 0x21ED9F3A, 0xBB23774C),
   (0xBAE90400020A, 0x50C831EB, 0x2813ADC3), (0xC5425FD0C1AF, 0x41F34C3D, 0x9E45CD2C),
   (0xF52B0FE5AB53, 0x107540AD, 0x8C051C27), (0x00C2555F40A0, 0x6C187CAE, 0x3C0E86F9),
   (0x6AAB52A57CA1, 0x110C5777, 0x22367C6A), (0x1083F960C3F4, 0xDA045275, 0x62BC9C22),
   (0x5AFEABEAFDA5, 0x7305D101, 0xE104FA02), (0x60ABF01F83F1, 0x7B8B2635, 0xC268CFEA),
   (0x3ABDFA8F02F0, 0x9AD18B4F, 0xDDBB2922), (0x0F16068AAAF4, 0x64799AF1, 0xB7318E55),
   (0xE054594AC05B, 0xB2E88D3C, 0x5B81276E), (0x206A041A41A8, 0xA7832429, 0xC8C04F98)]

/-- V4.3: the 16 ROUND events of X1. -/
theorem test_roundTrace :
    desEvents skA true 0x0123456789ABCDEF =
      roundsX1.mapIdx fun i r =>
        .round (i + 1) (BitVec.ofNat 48 r.1) (BitVec.ofNat 32 r.2.1) (BitVec.ofNat 32 r.2.2) := by
  decide +kernel

/-! ### Commands -/

/-- R131: NOP clears an error code and sets DONE. -/
theorem test_nop :
    (after (exec .nop { State.reset with err := .seq, busy := true })).err = .ok ∧
      statusWord (after (exec .nop { State.reset with err := .seq, busy := true })) = 0x00000002 := by decide

/-- R93: the first and the last subkey, and KEY kept. -/
theorem test_keyLoad :
    let t := after (exec (.keyLoad 8) { State.reset with key := 0x133457799BBCDFF1 })
    t.sk = skA ∧ t.keyValid = true ∧ t.key = 0x133457799BBCDFF1 := by decide +kernel

/-- V2.4 -/
theorem test_keyLoad_refused :
    (after (exec (.keyLoad 8) (encrypting 0))).err = .seq ∧ (after (exec (.keyLoad 8) (encrypting 0))).sk = skA := by
  decide +kernel

/-- R94's example, with DHKEY as it stands there. -/
theorem test_keyFromDh :
    let t := after (exec .keyFromDh { session with dhkey := 0x133457799BBCDFF1, dhkeyValid := true })
    t.key = 0x133457799BBCDFF1 ∧ t.sk[0] = 0x1B02EFFC7072 ∧ t.keyValid = true := by decide +kernel

/-- V2.5: SEQ comes before DH_STATE. -/
theorem test_keyFromDh_order :
    (after (exec .keyFromDh (encrypting 0))).err = .seq ∧ (after (exec .keyFromDh State.reset)).err = .dhState := by
  decide +kernel

/-- V2.2 -/
theorem test_subkeyRead :
    (after (exec (.subkeyRead 0) keyed)).dout = 0x1B02EFFC70720000 ∧
      (after (exec (.subkeyRead 15) keyed)).dout = 0xCB3D8B0E17F50000 := by decide +kernel

/-- V2.2: before any key load. -/
theorem test_subkeyRead_noKey : (after (exec (.subkeyRead 0) State.reset)).err = .noKey := by decide +kernel

/-- Section 3, the six tables on 0123456789ABCDEF. -/
theorem test_permute :
    [0, 1, 2, 3, 4, 5].map (fun t => (after (exec (.permute t) { State.reset with din := 0x0123456789ABCDEF })).dout) =
      [0xCC00CCFFF0AAF0AA, 0xFF330FAA00330FAA, 0xF0CCAA0AACCF0000, 0x3080E8BB75490000, 0x802906A0AB0E0000,
       0x80566C2C00000000] := by decide +kernel

/-- Section 3: input position 1 lands at positions 2 and 48, and DIN1 is ignored. -/
theorem test_permute_e :
    (after (exec (.permute 4) { State.reset with din := 0x80000000FFFFFFFF })).dout = 0x4000000000010000 := by
  decide +kernel

/-- R102's examples, with DIN0[31:6] and DIN1 set. -/
theorem test_sbox :
    (after (exec (.sbox 0) { State.reset with din := 0xFFFFFFDBFFFFFFFF })).dout = 0x0000000500000000 ∧
      (after (exec (.sbox 7) { State.reset with din := 0x0000003F00000000 })).dout = 0x0000000B00000000 := by
  decide +kernel

/-- V4.2 -/
theorem test_roundF :
    (after (exec (.roundF 0) { keyed with din := 0xF0AAF0AA00000000 })).dout = 0x234AA9BB00000000 ∧
      (after (exec (.roundF 15) { keyed with din := 0x4342323400000000 })).dout = 0xC8C04F9800000000 := by
  decide +kernel

/-- R150: one event, numbered by the round, and only while PTRACE = 1. -/
theorem test_roundF_trace :
    (after (exec (.roundF 0) { keyed with din := 0xF0AAF0AA00000000, ptrace := true })).trace =
      [.round 1 0x7A15557A1555 0x5C82B597 0x234AA9BB] ∧
    (after (exec (.roundF 0) { keyed with din := 0xF0AAF0AA00000000 })).trace = [] := by decide +kernel

/-- X1 -/
theorem test_blockEnc :
    (after (exec .blockEnc { keyed with din := 0x0123456789ABCDEF })).dout = 0x85E813540F0AB405 := by decide +kernel

/-- X2 -/
theorem test_blockDec :
    (after (exec .blockDec { keyed with din := 0x85E813540F0AB405 })).dout = 0x0123456789ABCDEF := by decide +kernel

/-- V4.4, row 2. -/
theorem test_blockEnc_vector :
    desBlock (keySchedule 0x0E329232EA6D0D73) true 0x8787878787878787 = 0 := by decide +kernel

/-- R112: DOUT and CHAIN are the one drawn IV. -/
theorem test_cbcEncInit :
    (after (exec .cbcEncInit keyed)).dout = (after (exec .cbcEncInit keyed)).chain ∧
      (after (exec .cbcEncInit keyed)).mode = .enc := ⟨rfl, rfl⟩

/-- V5.11: the first IV is kept. -/
theorem test_cbcEncInit_refused :
    (after (exec .cbcEncInit (encrypting 7))).err = .seq ∧ (after (exec .cbcEncInit (encrypting 7))).chain = 7 :=
  ⟨rfl, rfl⟩

/-- V5.1, step 2. -/
theorem test_cbcEncBlock :
    let t := after (exec .cbcEncBlock { encrypting 0x0011223344556677 with din := 0x48656C6C6F576F72 })
    t.dout = 0x1BCDDAB5717FA34B ∧ t.chain = 0x1BCDDAB5717FA34B ∧ t.mode = .enc := by decide +kernel

/-- V5.1, step 3, with DIN bytes 2..7 set. -/
theorem test_cbcEncFinal :
    let t := after (exec (.cbcEncFinal 2) { encrypting 0x1BCDDAB5717FA34B with din := 0x6C64FFFFFFFFFFFF })
    t.dout = 0x068A00FF9CC7C229 ∧ t.chain = 0x068A00FF9CC7C229 ∧ t.mode = .idle := by decide +kernel

/-- V5.2: a whole block of padding; PAD(8) is the first event. -/
theorem test_cbcEncFinal_empty :
    let t := after (exec (.cbcEncFinal 0) { encrypting 0 with ptrace := true })
    t.dout = 0xFDF2E174492922F8 ∧ t.trace.length = 18 ∧ t.trace.head? = some (.padding 8) ∧
      t.trace.getLast? = some (.chain .enc 0x0808080808080808 0xFDF2E174492922F8) := by decide +kernel

/-- V5.4, step 1. -/
theorem test_cbcDecInit :
    let t := after (exec .cbcDecInit { keyed with din := 0x0011223344556677, dout := 5 })
    t.chain = 0x0011223344556677 ∧ t.mode = .dec ∧ t.dout = 5 := by decide +kernel

/-- V5.4, step 2. -/
theorem test_cbcDecBlock :
    let t := after (exec .cbcDecBlock { decrypting 0x0011223344556677 with din := 0x1BCDDAB5717FA34B })
    t.dout = 0x48656C6C6F576F72 ∧ t.chain = 0x1BCDDAB5717FA34B ∧ t.mode = .dec := by decide +kernel

/-- V5.4, step 3. -/
theorem test_cbcDecFinal :
    let t := after (exec .cbcDecFinal { decrypting 0x1BCDDAB5717FA34B with din := 0x068A00FF9CC7C229 })
    t.dout = 0x6C64000000000000 ∧ t.nbytes = 2 ∧ t.err = .ok ∧ t.mode = .idle := by decide +kernel

/-- V5.8: L = 3, but byte 5 is 2. -/
theorem test_cbcDecFinal_pad :
    let t := after (exec .cbcDecFinal { decrypting 0 with din := 0xA620976786E08E43, dout := 9, nbytes := 3 })
    t.dout = 0 ∧ t.nbytes = 0 ∧ t.err = .pad ∧ t.mode = .idle ∧ t.chain = 0xA620976786E08E43 := by decide +kernel

/-- V5.5 and V5.6 to V5.9: the padding check alone. -/
theorem test_padding :
    [0x0808080808080808, 0x0123456789ABCD01, 0x0123456789ABCD00, 0x0123456789ABCD09, 0x0123456789ABCDFF,
      0x0123456789AB0203, 0x0708080808080808].map paddingOk = [true, true, false, false, false, false, false] := by
  decide +kernel

/-- R118 -/
theorem test_cbcAbort :
    let t := after (exec .cbcAbort { encrypting 7 with dout := 9 })
    t.mode = .idle ∧ t.chain = 7 ∧ t.dout = 9 ∧ t.err = .ok := by decide +kernel

/-- V6.1: with p = 4 the only exponent is 2, and g = 2 gives PUB = 0, g = 3 gives PUB = 1. -/
theorem test_dhInit_four (s : State) : drawnExponent 4 s = 2 ∧ modexp 2 2 4 = 0 ∧ modexp 3 2 4 = 1 :=
  ⟨by rw [drawnExponent, show 4 - 3 = 1 from rfl, Nat.mod_one], by decide +kernel, by decide +kernel⟩

/-- V6.1: DH_PARAM. -/
theorem test_dhInit_param :
    (after (exec (.dhInit 0) { State.reset with p := 3, g := 2 })).err = .dhParam ∧
      (after (exec (.dhInit 0) { State.reset with p := 23, g := 23 })).err = .dhParam ∧
      (after (exec (.dhInit 0) { State.reset with p := 23, g := 1 })).err = .dhParam := by decide +kernel

/-- V6.2 -/
theorem test_dhShared :
    (after (exec .dhShared { session with peer := 19 })).ssec = 2 ∧
      (after (exec .dhShared { session with peer := 42 })).ssec = 2 ∧
      (after (exec .dhShared { session with peer := 22 })).ssec = 1 := by decide +kernel

/-- V6.3 -/
theorem test_dhClear :
    let t := after (exec .dhClear { session with dhkey := 5, dhkeyValid := true, ssec := 2 })
    t.pub = 0 ∧ t.dhkey = 0 ∧ t.priv = 0 ∧ t.ssec = 0 ∧ t.p = 23 ∧ t.psess = 23 ∧ statusWord t = 0x00000002 := by
  decide +kernel

/-- V6.4 -/
theorem test_modexp :
    [(4, 13, 497), (500, 13, 497), (3, 497, 497), (0, 0, 7), (5, 0, 1), (0, 5, 7), (2, 10, 1000)].map
      (fun v => modexp v.1 v.2.1 v.2.2) = [445, 444, 341, 1, 0, 0, 24] := by decide +kernel

/-- V6.4: operands of several words. -/
theorem test_modexp_words :
    (after (exec .modexp { State.reset with mx := 0xFFFFFFFFFFFFFFFF, me := 65537, mm := 0x7FFFFFFFFFFFFFFFFFFFFFFFFFFFFFFF
      })).mr = 0x62EB34A1E5D060001C0C3949BE93D015 := by decide +kernel

/-- R132: the state after SOFT_RESET, with a trace already delivered. -/
theorem test_softReset :
    after (exec .softReset { encrypting 7 with irqEn := true, busyViol := true, p := 5, trace := [.padding 8] }) =
      { State.reset with done := true, trace := [.padding 8] } := rfl

/-! ### The window and the sequencer (95_test_vectors.md section 7) -/

/-- Registers at the first and last offset of their range, and the holes beside them (R43). -/
theorem test_regAt :
    [0x000, 0x014, 0x024, 0x028, 0x0FC, 0x100, 0x1FC, 0x2FC, 0x500, 0x8FC, 0x900, 0xFFC].map (fun b => regAt (wordOff b)) =
      [.id, .unmapped, .key1, .unmapped, .unmapped, .big .p 0, .big .p 63, .big .g 63, .big .mx 0, .big .mr 63, .unmapped,
       .unmapped] := by decide

/-- Dropped while BUSY, with BUSY_VIOL set; reads of STATUS are live. -/
theorem test_busy_write :
    let t := hostWrite (wordOff 0x030) 0x11111111 (issued 0x10)
    t.din = 0 ∧ t.busyViol = true ∧ (hostRead (wordOff 0x008) 7 t).busReads = [0x00000101] := by decide

/-- `wr STATUS, 0x00000100` clears BUSY_VIOL only; `clrdone` clears DONE only. -/
theorem test_w1c :
    let s := { State.reset with done := true, busyViol := true }
    statusWord (hostWrite (wordOff 0x008) 0x00000100 s) = 0x00000002 ∧
      statusWord (hostWrite (wordOff 0x008) 0x00000002 s) = 0x00000100 := by decide

/-- R142: setting IRQ_EN while DONE = 1 raises the interrupt at once; the acknowledgement of R144 lowers it. -/
theorem test_irq :
    let s := hostWrite (wordOff 0x004) 0x00000001 { State.reset with done := true }
    irq { State.reset with done := true } = false ∧ irq s = true ∧ irq (acknowledge s) = false := by decide

/-- R47: p = 23, and word 3 of a number. -/
theorem test_bigWords :
    (hostWrite (wordOff 0x100) 0x17 State.reset).p = 23 ∧
      (hostWrite (wordOff 0x10C) 0x12345678 { State.reset with p := 2 ^ 128 - 1 }).p =
        0x12345678FFFFFFFFFFFFFFFFFFFFFFFF := by decide +kernel

/-- P4, step 1: BLOCK_ENC placed right after reset is the first command to run, and reports NO_KEY. -/
theorem test_withFetchWord :
    let t := after (step (State.reset.withFetchWord 32 0x00000010))
    t.err = .noKey ∧ statusWord t = 0x00000006 ∧ t.cmd = 0x00000010 ∧ t.schedule = [] := by decide

/-- P4, step 2: an illegal word completes and stays in CMD. -/
theorem test_step_illegal :
    let t := after (step (State.reset.withFetchWord 32 0x00000004))
    t.err = .illegal ∧ statusWord t = 0x00000006 ∧ t.cmd = 0x00000004 := by decide

/-- R154: reset during a command. -/
theorem test_reset_abandons :
    let t := after (step { issued 0x10 with schedule := [.reset] })
    t.busy = false ∧ t.done = false ∧ t.cmd = 0 := by decide

/-- P1 and P3 in tokens: what operations of the notation stand for. -/
theorem test_readOp :
    readOp [.name "wr64", .name "KEY", .num 0x133457799BBCDFF1] = some (.wr64 .key 0x133457799BBCDFF1) ∧
      readOp [.name "run", .name "KEY_LOAD", .num 8] = some (.run (.keyLoad 8)) ∧
      readOp [.name "wr", .name "P", .num 0, .num 23] = some (.wr (.big .p 0) 23) ∧
      readOp [.name "cmd", .name "SUBKEY_READ", .num 17] = none := by decide

/-- The expansions of R68; a `wrbig` number beyond 2^2048 gives its low 64 words. -/
theorem test_turns :
    let c : RunChoice := ⟨1, ⟨5, 6⟩, 0⟩
    (HostOp.wr64 .key 0x133457799BBCDFF1).turns c =
        [.write (wordOff 0x020) 0x13345779, .write (wordOff 0x024) 0x9BBCDFF1] ∧
      (HostOp.run (.keyLoad 8)).turns c =
        [.write (wordOff 0x010) 0x00000801, .read (wordOff 0x008) 0, .core ⟨5, 6⟩, .read (wordOff 0x008) 0] ∧
      (HostOp.wrbig .mx (2 ^ 2048 + 2 ^ 64 - 1)).turns c = (HostOp.wrbig .mx (2 ^ 64 - 1)).turns c := by decide +kernel

/-- P4, step 8: `cmd BLOCK_ENC ; wr DIN0, 0x11111111 ; wait` in its two orders. -/
theorem test_busyRace :
    let c : RunChoice := ⟨0, ⟨5, 6⟩, 0⟩
    let s := { keyed with din := 0xECC1A6E177F393B1 }
    let run (ts : List RunItem) := after (core.run 5 { s with schedule := programTurns ts })
    let a := run [.op (.cmd .blockEnc) c, .coreStep ⟨5, 6⟩, .op (.wr .din0 0x11111111) c, .op .wait c]
    let b := run [.op (.cmd .blockEnc) c, .op (.wr .din0 0x11111111) c, .op .wait c]
    a.din = 0x1111111177F393B1 ∧ a.busyViol = false ∧ a.dout = 0xEB9B7009D9CD87B0 ∧
      b.din = 0xECC1A6E177F393B1 ∧ b.busyViol = true ∧ b.dout = 0xEB9B7009D9CD87B0 := by decide +kernel

/-- R68: `rd64` takes the high word first, `rdbig` the low word. -/
theorem test_readValues :
    (HostOp.rd64 .dout).value [0x85E81354, 0x0F0AB405] = 0x85E813540F0AB405 ∧
      (HostOp.rdbig .mr).value [0xBE93D015, 0x1C0C3949, 0xE5D06000, 0x62EB34A1] = 0x62EB34A1E5D060001C0C3949BE93D015 := by
  decide +kernel

/-- V5.1 and X8: the padded message and the length of the ciphertext. -/
theorem test_payload :
    padMessage [0x6C, 0x64] = [0x6C, 0x64, 6, 6, 6, 6, 6, 6] ∧ (cbcEncrypt skA [0x6C, 0x64] 0).length = 16 := by
  decide +kernel

/-! ### Witnesses: states and operands that meet the hypotheses of the statements -/

theorem witness_DecodeInvertsEncode :
    (Instr.cbcEncFinal 7).wellFormed = true ∧ (Instr.permute 5).wellFormed = true ∧ Instr.softReset.wellFormed = true := by
  decide

theorem witness_DecodedWordIsTheEncoding : decode 0x00000722 = .ok (.cbcEncFinal 7) := by decide

theorem witness_IllegalOpcodeOnlyCompletes :
    (issued 0x00000004).busy = true ∧ (issued 0x00000004).coreNext Config.resetLastDraw [] ∧
      opField (issued 0x00000004).pend ∉ legalOpcodes :=
  ⟨rfl, .inr ⟨rfl, rfl, rfl⟩, by decide⟩

theorem witness_MalformedWordOnlyCompletes_rsv :
    (issued 0x00001010).busy = true ∧ (issued 0x00001010).coreNext Config.resetLastDraw [] ∧
      opField (issued 0x00001010).pend ∈ legalOpcodes ∧
      rsvField (issued 0x00001010).pend ≠ 0 :=
  ⟨rfl, .inr ⟨rfl, rfl, rfl⟩, by decide, by decide⟩

theorem witness_MalformedWordOnlyCompletes_arg :
    (issued 0x00000608).busy = true ∧ (issued 0x00000608).coreNext Config.resetLastDraw [] ∧
      opField (issued 0x00000608).pend ∈ legalOpcodes ∧
      ¬ legalArg (opField (issued 0x00000608).pend) (argField (issued 0x00000608).pend) :=
  ⟨rfl, .inr ⟨rfl, rfl, rfl⟩, by decide, by unfold legalArg; decide⟩

theorem witness_MalformedWordOnlyCompletes_legal :
    (issued 0x00000508).busy = true ∧ (issued 0x00000508).coreNext Config.resetLastDraw [] ∧
      opField (issued 0x00000508).pend ∈ legalOpcodes ∧
      rsvField (issued 0x00000508).pend = 0 ∧
      legalArg (opField (issued 0x00000508).pend) (argField (issued 0x00000508).pend) :=
  ⟨rfl, .inr ⟨rfl, rfl, rfl⟩, by decide, by decide, by unfold legalArg; decide⟩

theorem witness_StepRunsPendingCommand :
    let s := { issued 0x00000801 with schedule := [.core ⟨5, 6⟩, .read (wordOff 0x008) 7] }
    s.busy = true ∧ s.coreNext ⟨5, 6⟩ [.read (wordOff 0x008) 7] ∧ decode s.pend = .ok (.keyLoad 8) :=
  ⟨rfl, .inl rfl, by decide⟩

theorem witness_IdleCoreKeepsState :
    let s := { keyed with schedule := [.core ⟨5, 6⟩] }
    s.busy = false ∧ s.coreNext ⟨5, 6⟩ [] := ⟨rfl, .inl rfl⟩

theorem witness_IssuedWordCompletes : (issued 0x000000FF).busy = true ∧ (issued 0x000000FF).coreNext Config.resetLastDraw [] :=
  ⟨rfl, .inr ⟨rfl, rfl, rfl⟩⟩

theorem witness_EveryRunEnds : keyed.ended := ⟨rfl, rfl⟩

theorem witness_IdleReadFollowsRegisterMap :
    let s := { keyed with schedule := [.read (wordOff 0x8FC) 7] }
    s.busy = false ∧ s.schedule = [.read (wordOff 0x8FC) 7] := ⟨rfl, rfl⟩

theorem witness_CmdWriteIssues_idle :
    let s := { keyed with schedule := [.write (wordOff 0x010) 0x00000010] }
    s.busy = false ∧ s.schedule = [.write (wordOff 0x010) 0x00000010] := ⟨rfl, rfl⟩

theorem witness_CmdWriteIssues_busy :
    let s := { issued 0x10 with schedule := [.write (wordOff 0x010) 0x00000011] }
    s.busy = true ∧ s.schedule = [.write (wordOff 0x010) 0x00000011] := ⟨rfl, rfl⟩

theorem witness_CmdWriteIssues_read :
    { issued 0x10 with schedule := [.read (wordOff 0x010) 7] }.schedule = [.read (wordOff 0x010) 7] := rfl

theorem witness_InputWriteReplacesOneWord :
    let s := { keyed with schedule := [.write (wordOff 0x7FC) 0xFFFFFFFF] }
    s.busy = false ∧ holdsWrites (4 * (wordOff 0x7FC).val) ∧ s.schedule = [.write (wordOff 0x7FC) 0xFFFFFFFF] :=
  ⟨rfl, by unfold holdsWrites; decide, rfl⟩

theorem witness_ReadOnlyWriteIsIgnored :
    let s := { keyed with schedule := [.write (wordOff 0x300) 1] }
    s.busy = false ∧ ¬ holdsWrites (4 * (wordOff 0x300).val) ∧ (wordOff 0x300).val ≠ 1 ∧ (wordOff 0x300).val ≠ 2 ∧
      (wordOff 0x300).val ≠ 4 ∧ s.schedule = [.write (wordOff 0x300) 1] :=
  ⟨rfl, by unfold holdsWrites; decide, by decide, by decide, by decide, rfl⟩

theorem witness_CtrlAndStatusWrites_ctrl :
    { issued 0x10 with schedule := [.write (wordOff 0x004) 3] }.schedule = [.write (wordOff 0x004) 3] := rfl

theorem witness_CtrlAndStatusWrites_status :
    { keyed with schedule := [.write (wordOff 0x008) 0x102] }.schedule = [.write (wordOff 0x008) 0x102] := rfl

theorem witness_BusyAccesses_liveRead :
    let s := { issued 0x10 with schedule := [.read (wordOff 0x010) 7] }
    s.busy = true ∧ s.schedule = [.read (wordOff 0x010) 7] ∧ (wordOff 0x010).val ∈ [0, 1, 2, 4] := ⟨rfl, rfl, by decide⟩

theorem witness_BusyAccesses_drawnRead :
    let s := { issued 0x10 with schedule := [.read (wordOff 0x014) 7] }
    s.busy = true ∧ s.schedule = [.read (wordOff 0x014) 7] ∧ (wordOff 0x014).val ∉ [0, 1, 2, 4] := ⟨rfl, rfl, by decide⟩

theorem witness_BusyAccesses_writes :
    { issued 0x10 with schedule := [.write (wordOff 0x004) 1] }.schedule = [.write (wordOff 0x004) 1] ∧
    { issued 0x10 with schedule := [.write (wordOff 0x008) 2] }.schedule = [.write (wordOff 0x008) 2] ∧
    { issued 0x10 with schedule := [.write (wordOff 0x000) 1] }.schedule = [.write (wordOff 0x000) 1] ∧
    (wordOff 0x004).val = 1 ∧ (wordOff 0x008).val = 2 ∧ (wordOff 0x000).val ≠ 1 ∧ (wordOff 0x000).val ≠ 2 :=
  ⟨rfl, rfl, rfl, by decide, by decide, by decide, by decide⟩

theorem witness_PairWriteReadsBack : keyed.busy = false ∧ (PairReg.din = .key ∨ PairReg.din = .din) := ⟨rfl, .inr rfl⟩

theorem witness_HardwareResetStep :
    { issued 0x10 with schedule := [.reset, .core ⟨5, 6⟩] }.schedule = [.reset, .core ⟨5, 6⟩] := rfl

theorem witness_StateRightAfterReset_needsKey :
    (Instr.cbcEncFinal 7).wellFormed = true ∧ needsKey (.cbcEncFinal 7) = true := by decide

theorem witness_StateRightAfterReset_modexp :
    let s := { State.reset with mm := 1, draw := ⟨5, 6⟩ }
    Instr.modexp.wellFormed = true ∧ needsKey .modexp = false ∧ Instr.modexp ≠ .dhShared ∧ Instr.modexp ≠ .keyFromDh ∧
      { s with draw := State.reset.draw }.withoutInputs = State.reset.withoutInputs ∧ s.mm ≠ 0 :=
  ⟨by decide, by decide, by decide, by decide, by simp only [State.withoutInputs, State.reset], by decide +kernel⟩

theorem witness_StateRightAfterReset_dhInit :
    let s := { State.reset with p := 4, g := 2, draw := ⟨5, 6⟩ }
    (Instr.dhInit 0).wellFormed = true ∧ needsKey (.dhInit 0) = false ∧
      { s with draw := State.reset.draw }.withoutInputs = State.reset.withoutInputs ∧ 4 ≤ s.p.toNat ∧ 2 ≤ s.g.toNat ∧
      s.g.toNat < s.p.toNat :=
  ⟨by decide, by decide, by simp only [State.withoutInputs, State.reset], by decide +kernel, by decide +kernel,
    by decide +kernel⟩

theorem witness_MissingKeyIsReported :
    (Instr.roundF 15).wellFormed = true ∧ needsKey (.roundF 15) = true ∧ State.reset.keyValid = false := by decide

theorem witness_WrongChainModeIsRefused :
    (Instr.cbcEncFinal 7).wellFormed = true ∧ (needsKey (.cbcEncFinal 7) = true → (decrypting 0).keyValid = true) ∧
      neededMode (.cbcEncFinal 7) = some .enc ∧ (decrypting 0).mode ≠ .enc :=
  ⟨by decide, fun _ => rfl, rfl, by decide⟩

theorem witness_DhAndModexpChecks :
    State.reset.dhKeyed = false ∧ State.reset.mode = .idle ∧ State.reset.dhkeyValid = false ∧ State.reset.mm = 0 ∧
      ¬ (4 ≤ State.reset.p.toNat ∧ 2 ≤ State.reset.g.toNat ∧ State.reset.g.toNat < State.reset.p.toNat) :=
  ⟨rfl, rfl, rfl, rfl, by decide +kernel⟩

theorem witness_IllegalArgumentIsRefused :
    (Instr.permute 6).wellFormed = false ∧ (Instr.sbox 8).wellFormed = false ∧ (Instr.cbcEncFinal 8).wellFormed = false ∧
      (Instr.dhInit 2).wellFormed = false := by decide

theorem witness_ErrorsArePrecise :
    let t := after (exec .modexp State.reset)
    exec .modexp State.reset = .next t ∧ t.err = .modZero ∧ ErrCode.modZero ≠ .ok ∧ ErrCode.modZero ≠ .pad :=
  ⟨rfl, by decide +kernel, by decide, by decide⟩

theorem witness_ErrorsArePrecise_pad :
    (after (exec .cbcDecFinal { decrypting 0 with din := 0xD642E0851E568653 })).err = .pad := by decide +kernel

theorem witness_ReportedCodes :
    Instr.nop.wellFormed = true ∧ exec .nop keyed = .next { keyed with done := true } := ⟨rfl, rfl⟩

theorem witness_KeyLoadComputesSchedule : keyed.mode = .idle := rfl

theorem witness_KeyFromDhLoadsDerivedKey :
    { session with dhkeyValid := true }.mode = .idle ∧ { session with dhkeyValid := true }.dhkeyValid = true := ⟨rfl, rfl⟩

/-- For SubkeyReadCopiesSubkey, RoundFEvaluatesF, BlockCommandsRunSixteenRounds, BlockRoundTrip, CbcEncInitDrawsIv and
CbcDecInitTakesIv. -/
theorem witness_keyLoaded : keyed.keyValid = true ∧ keyed.mode = .idle := ⟨rfl, rfl⟩

theorem witness_PermuteAppliesTable : (5 : BitVec 4).toNat ≤ 5 := by decide

theorem witness_ParityBitsDoNotMatter :
    keyed.mode = .idle ∧ ∀ k < 8, byteNat keyed.key k / 2 = byteNat 0x123556789ABDDEF0 k / 2 := ⟨rfl, by decide +kernel⟩

theorem witness_SboxLooksUpEntry : (7 : BitVec 4).toNat ≤ 7 := by decide

theorem witness_CbcEncBlockChains : (encrypting 7).keyValid = true ∧ (encrypting 7).mode = .enc := ⟨rfl, rfl⟩

theorem witness_CbcEncFinalPadsAndEnds :
    (7 : BitVec 4).toNat ≤ 7 ∧ (encrypting 7).keyValid = true ∧ (encrypting 7).mode = .enc := ⟨by decide, rfl, rfl⟩

theorem witness_CbcDecBlockChains : (decrypting 7).keyValid = true ∧ (decrypting 7).mode = .dec := ⟨rfl, rfl⟩

theorem witness_CbcDecFinalChecksPadding :
    (decrypting 0).keyValid = true ∧ (decrypting 0).mode = .dec ∧ PaddingValid 0x0808080808080808 ∧
      ¬ PaddingValid 0x0123456789ABCD00 :=
  ⟨rfl, rfl, by unfold PaddingValid; decide +kernel, by unfold PaddingValid; decide +kernel⟩

theorem witness_ChainModeTransitions :
    exec .cbcAbort (encrypting 7) = .next { encrypting 7 with mode := .idle, done := true } ∧
      (after (exec .cbcEncBlock State.reset)).err = .noKey ∧ (after (exec .cbcEncBlock keyed)).err = .seq := ⟨rfl, rfl, rfl⟩

theorem witness_StreamEncryptsPayload :
    keyed.keyValid = true ∧ keyed.mode = .idle ∧ (7 : BitVec 4).toNat ≤ 7 ∧ ∃ t0, exec .cbcEncInit keyed = .next t0 :=
  ⟨rfl, rfl, by decide, exec_next _ _⟩

theorem witness_StreamDecryptsPayload :
    keyed.keyValid = true ∧ keyed.mode = .idle ∧ ∃ t0, exec .cbcDecInit { keyed with din := 0x0011223344556677 } = .next t0 :=
  ⟨rfl, rfl, exec_next _ _⟩

theorem witness_DhInitMakesKeyPair :
    ((0 : BitVec 4) = 0 ∧ (23 : Big) = session.p ∧ (5 : Big) = session.g ∧ 4 ≤ (23 : Big).toNat ∧ 2 ≤ (5 : Big).toNat ∧
        (5 : Big).toNat < (23 : Big).toNat) ∧
      ((1 : BitVec 4) = 1 ∧ Config.pDefault = Config.pDefault ∧ (2 : Big) = 2) ∧
      2 ≤ (21 : Big).toNat ∧ (21 : Big).toNat ≤ (23 : Big).toNat - 2 :=
  ⟨by decide +kernel, ⟨rfl, rfl, rfl⟩, by decide +kernel, by decide +kernel⟩

theorem witness_DhSharedDerivesKey : session.dhKeyed = true ∧ 1 ≤ session.psess.toNat := by decide +kernel

theorem witness_ModexpIsExact : { State.reset with mm := 1 }.mm ≠ 0 := by decide +kernel

theorem witness_DhStateTransitions :
    (∃ t, exec (.dhInit 0) session = .next t) ∧ (∃ t, exec .dhShared session = .next t) ∧
      (∃ t, exec .keyFromDh session = .next t) ∧ session.dhkeyValid = false :=
  ⟨exec_next _ _, exec_next _ _, exec_next _ _, rfl⟩

theorem witness_DhAgreement :
    let s := { State.reset with p := 23, g := 5 }
    let s' := { s with draw := ⟨5, 6⟩ }
    s.p = s'.p ∧ s.g = s'.g ∧ 4 ≤ s.p.toNat ∧ 2 ≤ s.g.toNat ∧ s.g.toNat < s.p.toNat := by decide +kernel

theorem witness_StepKeepsInvariants : State.reset.Inv ∧ ∃ t, step State.reset = .next t :=
  ⟨by constructor <;> simp [State.reset], step_next _⟩

/-- A keyed DH session in the middle of a CBC message meets the invariants too. -/
theorem witness_StepKeepsInvariants_session :
    State.Inv { encrypting 7 with psess := 23, priv := 6, pub := 8, dhKeyed := true, nbytes := 7 } := by
  constructor
  case keyed_range => exact fun _ => by decide +kernel
  all_goals simp [encrypting, keyed]

theorem witness_OnlyTheseCommandsWrite : exec .nop keyed = .next { keyed with done := true } := rfl

theorem witness_TraceOnlyGrows :
    let s := { issued 0x00000801 with ptrace := true }
    ∃ t, step s = .next t ∧ t.trace.length = 16 :=
  ⟨after (step { issued 0x00000801 with ptrace := true }), rfl, by decide +kernel⟩

/-- A write made while BUSY = 1 and PTRACE = 1 is no core step. -/
theorem witness_TraceOnlyGrows_write :
    let s := { issued 0x00000801 with ptrace := true, schedule := [.write (wordOff 0x030) 1] }
    (∃ t, step s = .next t) ∧ ¬ ∃ d rest, s.coreNext d rest :=
  ⟨step_next _, fun ⟨_, _, h⟩ => by obtain h | ⟨h, -⟩ := h <;> cases h⟩

theorem witness_TracingHasNoInfluence :
    let s := issued 0x00000801
    let t := { s with ptrace := true, trace := [.padding 8] }
    s.untraced = t.untraced ∧ s ≠ t :=
  ⟨rfl, fun h => absurd (congrArg State.ptrace h) (by decide)⟩

theorem witness_SecretsStayInside :
    let t := { session with priv := 7, ssec := 3, psess := 24, draw := ⟨5, 6⟩ }
    session.withoutSecrets = t.withoutSecrets ∧ session ≠ t :=
  ⟨by simp only [State.withoutSecrets], fun h => absurd (congrArg State.priv h) (by decide +kernel)⟩

/-- DH_SHARED was executed, and its word still stands in PEND: no later move is exempt. -/
theorem witness_SecretsStayInside_notShared :
    let s := { issued 0x00000031 with busy := false }
    decode s.pend = .ok .dhShared ∧ ¬ s.executes .dhShared := ⟨by decide, fun h => absurd h.1 (by decide)⟩

end Sys2Proof.Tests
end

section
/-! SUPPORT. Facts about the shared operations that the laws above leave out: the core's step on a legal word, a host
access as a step, and what the two bus writes that stay live while BUSY = 1 leave in the state. -/

namespace Sys2Proof.Machine

/-- R36, R69: while BUSY = 1, a pending word that decodes is executed. -/
theorem coreStep_of_decode {s : State} {i : Instr} (d : Draw) (hb : s.busy = true) (hi : decode s.pend = .ok i) :
    coreStep d s = exec i { s with draw := d } := by
  obtain ⟨hidle, -⟩ | ⟨-, e, he, -⟩ | ⟨-, j, hj, hexec⟩ := coreStep_cases d s
  · exact absurd (hb.symm.trans hidle) (by decide)
  · cases hi.symm.trans he
  · cases hi.symm.trans hj
    exact hexec

/-- A scheduled read, as a step. -/
theorem step_read {s : State} {off : WordOff} {d : Word} {rest : List Turn} (h : s.schedule = .read off d :: rest) :
    step s = .next (hostRead off d { s with schedule := rest }) := by
  rw [step, nextMove, h]; rfl

/-- A scheduled write, as a step. -/
theorem step_write {s : State} {off : WordOff} {v : Word} {rest : List Turn} (h : s.schedule = .write off v :: rest) :
    step s = .next (hostWrite off v { s with schedule := rest }) := by
  rw [step, nextMove, h]; rfl

/-- R43: the register at an offset holds what the register map says, as a word. -/
theorem regValue_regAt (off : WordOff) (s : State) :
    regValue (regAt off) s = BitVec.ofNat 32 (windowNat s (4 * off.val)) := by
  rw [← regValue_toNat, BitVec.ofNat_toNat, BitVec.setWidth_eq]

/-- R21, R44: a write of STATUS clears DONE and BUSY_VIOL where it writes 1. -/
theorem writeStatus_eq (v : Word) (s : State) :
    writeStatus v s = { s with
      done := if v.getLsbD 1 then false else s.done
      busyViol := if v.getLsbD 8 then false else s.busyViol } := by
  have clear : ∀ x b : Bool, (x && !b) = if b then false else x := by decide
  rw [writeStatus, clear, clear]

/-- The CBC checks pass with a key in the needed chain mode (R111, R139). -/
theorem cbcChecked_pass {m : ChainMode} {s : State} (hk : s.keyValid = true) (hm : s.mode = m) (e : State) :
    cbcChecked m s e = e := by
  obtain ⟨hno, -⟩ | ⟨-, hne, -⟩ | ⟨-, -, h⟩ := cbcChecked_cases m s e
  · exact absurd (hk.symm.trans hno) (by decide)
  · exact absurd hm hne
  · exact h

end Sys2Proof.Machine
end

section
/-! SUPPORT. Host reads and writes while BUSY = 1 (spec/20_memory.md rule R58). -/

namespace Sys2Proof.Machine

variable {s : State} {off : WordOff} {rest : List Turn}

/-- R58: ID, CTRL, STATUS and CMD read as when idle. -/
theorem step_read_live {d : Word} (h : s.schedule = .read off d :: rest) (hoff : off.val ∈ [0, 1, 2, 4]) :
    step s = .next { s with
      schedule := rest, busReads := s.busReads ++ [BitVec.ofNat 32 (windowNat s (4 * off.val))] } := by
  have hlive := (regAt_live off).1.2 hoff
  rw [step_read h]
  obtain ⟨-, hread⟩ | ⟨-, hdead, -⟩ := hostRead_cases off d { s with schedule := rest }
  · rw [hread, regValue_schedule, regValue_regAt]
  · exact absurd (hlive.symm.trans hdead) (by decide)

/-- R58: any other read while BUSY = 1 returns its draw. -/
theorem step_read_drawn {d : Word} (hb : s.busy = true) (h : s.schedule = .read off d :: rest)
    (hoff : off.val ∉ [0, 1, 2, 4]) :
    step s = .next { s with schedule := rest, busReads := s.busReads ++ [d] } := by
  rw [step_read h]
  obtain ⟨hidle | hlive, -⟩ | ⟨-, -, hread⟩ := hostRead_cases off d { s with schedule := rest }
  · exact absurd (hb.symm.trans hidle) (by decide)
  · exact absurd ((regAt_live off).1.1 hlive) hoff
  · rw [hread]

/-- R58: while BUSY = 1, CTRL and STATUS take a write as when idle, and every other offset drops it and sets BUSY_VIOL. -/
theorem step_write_busy {v : Word} (hb : s.busy = true) (h : s.schedule = .write off v :: rest) :
    (off.val = 1 ∧ step s = .next (writeCtrl v { s with schedule := rest })) ∨
    (off.val = 2 ∧ step s = .next (writeStatus v { s with schedule := rest })) ∨
    (off.val ≠ 1 ∧ off.val ≠ 2 ∧ step s = .next { s with schedule := rest, busyViol := true }) := by
  obtain ⟨-, hctrl, hstatus, -⟩ := regAt_live off
  rw [step_write h]
  obtain ⟨hr, hw⟩ | ⟨hr, hw⟩ | ⟨hr1, hr2, hw⟩ := hostWrite_busy off v { s with schedule := rest } hb
  · exact .inl ⟨hctrl.1 hr, by rw [hw]⟩
  · exact .inr (.inl ⟨hstatus.1 hr, by rw [hw]⟩)
  · exact .inr (.inr ⟨mt hctrl.2 hr1, mt hstatus.2 hr2, by rw [hw]⟩)

end Sys2Proof.Machine
end

section
/-! SUPPORT. PERMUTE's output is its table applied to DIN (spec/41_permute_keysched.md rules R89, R90). -/

namespace Sys2Proof.Machine

/-- R85: a table whose sources are all among the first `w` positions reads no other. -/
theorem permute_subseq {n w : Nat} (m : Nat) (T : List Nat) (s : BitVec n) (hw : w ≤ n)
    (hT : ∀ i ∈ T, 1 ≤ i ∧ i ≤ w) : permute m T (subseq s 1 w) = permute m T s := by
  have hbit : ∀ i ∈ T, bitAt (subseq s 1 w) i = bitAt s i := fun i hi => by
    obtain ⟨h1, h2⟩ := hT i hi
    rw [bitAt, getMsbD_subseq s 1 w (i - 1) le_rfl (by omega) (by omega), Nat.add_sub_cancel' h1]
  rw [permute, permute, List.foldl_ext _ _ _ fun acc i hi => by rw [hbit i hi]]

/-- R89: each legal table id applies its table to the whole of DIN, top-aligned. -/
theorem permuteByTable_eq (t : BitVec 4) (ht : t.toNat ≤ 5) (din : Block) :
    permuteByTable t din = topAlign (permute (permuteTable t.toNat).length (permuteTable t.toNat) din) := by
  unfold permuteByTable
  obtain h | h | h | h | h | h : t.toNat = 0 ∨ t.toNat = 1 ∨ t.toNat = 2 ∨ t.toNat = 3 ∨ t.toNat = 4 ∨ t.toNat = 5 := by
    omega
  all_goals rw [h]
  · rfl
  · rfl
  · rfl
  · exact congrArg topAlign (permute_subseq 48 pc2Table din (by decide) (by decide))
  · exact congrArg topAlign (permute_subseq 48 eTable din (by decide) (by decide))
  · exact congrArg topAlign (permute_subseq 32 pTable din (by decide) (by decide))

/-- R90: a permuted sequence, top-aligned: the table's positions, then zeros. -/
theorem getMsbD_topAlign_permute {n m : Nat} (T : List Nat) (s : BitVec n) (hT : T.length = m) (hm : m ≤ 64) (j : Nat) :
    (topAlign (permute m T s)).getMsbD j = (decide (j < m) && s.getMsbD (T.getD j 0 - 1)) := by
  rw [getMsbD_topAlign _ hm]
  by_cases hj : j < m
  · rw [getMsbD_permute T s hT j hj, bitAt, decide_eq_true hj, Bool.true_and]
  · rw [BitVec.getMsbD_of_ge _ _ (by omega), decide_eq_false hj, Bool.false_and]

/-- R85: no table has more than 64 positions. -/
theorem permuteTable_length_le : ∀ t ≤ 5, (permuteTable t).length ≤ 64 := by decide

end Sys2Proof.Machine
end

section
/-! SUPPORT. DH_INIT and MODEXP where their checks pass (spec/44_dh_modexp.md rules R122, R124, R128). -/

namespace Sys2Proof.Machine

/-- R122 -/
theorem dhValid_iff (p g : Nat) : dhValid p g = true ↔ 4 ≤ p ∧ 2 ≤ g ∧ g < p := by
  simp only [dhValid, Bool.and_eq_true, decide_eq_true_eq, and_assoc]

/-- DH_INIT with `dflt` takes the valid parameters `p` and `g`: those the host wrote, or the defaults (R124). -/
structure DhInitTakes (dflt : BitVec 4) (s : State) (p g : Big) : Prop where
  arg_legal : dflt.toNat ≤ 1
  p_eq : (if defBit dflt then Config.pDefault else s.p) = p
  g_eq : (if defBit dflt then Config.gDefault else s.g) = g
  valid : dhValid p.toNat g.toNat = true

/-- DEF = 0: valid P and G are taken. -/
theorem DhInitTakes.of_registers {s : State} (hv : dhValid s.p.toNat s.g.toNat = true) : DhInitTakes 0 s s.p s.g :=
  ⟨by decide, rfl, rfl, hv⟩

/-- DEF = 1: the defaults are taken. -/
theorem DhInitTakes.of_defaults (s : State) : DhInitTakes 1 s Config.pDefault Config.gDefault :=
  ⟨by decide, rfl, rfl, dhValid_defaults⟩

/-- The free input is no parameter. -/
theorem DhInitTakes.with_draw {dflt : BitVec 4} {s : State} {p g : Big} (h : DhInitTakes dflt s p g) (d : Draw) :
    DhInitTakes dflt { s with draw := d } p g :=
  ⟨h.arg_legal, h.p_eq, h.g_eq, h.valid⟩

/-- R124: DH_INIT with valid parameters. -/
theorem exec_dhInit {dflt : BitVec 4} {s : State} {p g : Big} (h : DhInitTakes dflt s p g) :
    exec (.dhInit dflt) s = .next { s with
      p := p, g := g, psess := p
      priv := BitVec.ofNat 2048 (drawnExponent p.toNat s)
      pub := BitVec.ofNat 2048 (modexp g.toNat (drawnExponent p.toNat s) p.toNat)
      ssec := 0, dhkey := 0, dhKeyed := true, dhkeyValid := false
      err := .ok, done := true, busy := false } := by
  obtain ⟨harg, hp, hg, hv⟩ := h
  rw [exec, execDhInit]
  simp only [hp, hg]
  rw [if_neg (by omega), if_neg (by simp [hv])]
  rfl

/-- R124: the drawn exponent is a big number. -/
theorem drawnExponent_lt {p : Big} (s : State) (hp : 4 ≤ p.toNat) : drawnExponent p.toNat s < 2 ^ 2048 :=
  ((drawnExponent_mem p.toNat s hp).2.trans (Nat.sub_le _ _)).trans_lt p.isLt

/-- R128: MODEXP with a modulus. -/
theorem exec_modexp {s : State} (h : s.mm ≠ 0) :
    exec .modexp s = .next { s with
      mr := BitVec.ofNat 2048 (modexp s.mx.toNat s.me.toNat s.mm.toNat), err := .ok, done := true, busy := false } := by
  rw [exec, execModexp, if_neg h]
  rfl

end Sys2Proof.Machine
end

section
/-! The statements of spec/00_scope.md's family. -/

namespace Sys2Proof.Machine

/-- Settles O6: the step whose turn is the core's is the core's step, and that executes the decoded word. -/
theorem stepRunsPendingCommand : Obligations.StepRunsPendingCommand := by
  intro s d rest i hb hn hi
  rw [step_of_coreNext hn]
  exact coreStep_of_decode d hb hi

/-- Settles O15: reads by whether the offset is live while BUSY = 1, writes by the three cases of a busy write. -/
theorem busyAccesses : Obligations.BusyAccesses := by
  intro s off v d rest hb
  refine ⟨fun hread => ⟨step_read_live hread, step_read_drawn hb hread⟩, fun hwrite => ?_⟩
  obtain ⟨hoff, hstep⟩ | ⟨hoff, hstep⟩ | ⟨hoff1, hoff2, hstep⟩ := step_write_busy hb hwrite
  · exact ⟨fun _ => hstep, fun h2 => by omega, fun h1 _ => absurd hoff h1⟩
  · exact ⟨fun h1 => by omega, fun _ => by rw [hstep, writeStatus_eq], fun _ h2 => absurd hoff h2⟩
  · exact ⟨fun h1 => absurd h1 hoff1, fun h2 => absurd h2 hoff2, fun _ _ => hstep⟩

/-- Settles O31: every legal id applies its table to DIN, and the result's bits are those of `getMsbD_topAlign_permute`. -/
theorem permuteAppliesTable : Obligations.PermuteAppliesTable := by
  intro t s ht
  refine ⟨permuteByTable t s.din, ?_, fun j _ => ?_⟩
  · rw [exec, execPermute, if_neg (by omega)]
    rfl
  · rw [permuteByTable_eq t ht, getMsbD_topAlign_permute _ _ rfl (permuteTable_length_le _ ht)]

/-- Settles O37: with a key and in chain mode IDLE the checks pass, and the drawn IV is the step's free input. -/
theorem cbcEncInitDrawsIv : Obligations.CbcEncInitDrawsIv := by
  rintro s _ hk hm rfl
  rw [exec, execCbcEncInit, cbcChecked_pass hk hm]
  rfl

/-- Settles O49: both forms take valid parameters, the drawn exponent is in range, and each of the range is drawn by the
free input two below it. -/
theorem dhInitMakesKeyPair : Obligations.DhInitMakesKeyPair := by
  intro dflt s p g hform
  have htakes : DhInitTakes dflt s p g := by
    obtain ⟨rfl, rfl, rfl, hvalid⟩ | ⟨rfl, rfl, rfl⟩ := hform
    · exact .of_registers ((dhValid_iff _ _).2 hvalid)
    · exact .of_defaults s
  obtain ⟨hp, -, -⟩ := (dhValid_iff _ _).1 htakes.valid
  have hlt := drawnExponent_lt s hp
  have hpriv : (BitVec.ofNat 2048 (drawnExponent p.toNat s)).toNat = drawnExponent p.toNat s := by
    rw [BitVec.toNat_ofNat]
    exact Nat.mod_eq_of_lt hlt
  obtain ⟨hlo, hhi⟩ := drawnExponent_mem p.toNat s hp
  refine ⟨⟨_, _, ?_, ?_, ?_, exec_dhInit htakes⟩, fun a ha2 hap => ?_⟩
  · rwa [hpriv]
  · rwa [hpriv]
  · rw [hpriv, modexp_toNat _ _ p hlt (by omega)]
  · refine ⟨⟨0, a.toNat - 2⟩, _, exec_dhInit (htakes.with_draw _), rfl, ?_⟩
    dsimp only
    rw [drawnExponent_onto p.toNat a.toNat _ ha2 hap rfl, BitVec.ofNat_toNat, BitVec.setWidth_eq]

/-- Settles O52: the engine's value is the power (`modexp_toNat`), since ME is below 2^2048 and MM is not 0. -/
theorem modexpIsExact : Obligations.ModexpIsExact := by
  intro s hmm
  have hpos : 0 < s.mm.toNat := Nat.pos_of_ne_zero fun h => hmm (BitVec.toNat_inj.1 (h.trans BitVec.toNat_zero.symm))
  exact ⟨_, modexp_toNat _ _ s.mm s.me.isLt hpos, exec_modexp hmm⟩

end Sys2Proof.Machine
end

section
/-! SUPPORT. What a command can do to the state, said once for all claims about every command: it is refused and only
completes (R138), or it passes its checks and writes the registers of its own rule. -/

namespace Sys2Proof.Machine

/-- `Effect s i t`: `t` is a state that command `i` can leave `s` in. The registers written and the checks passed are the
command's own; a written value stands open where only its rule's own statement speaks of it. -/
inductive Effect (s : State) : Instr → State → Prop where
  | refused (i : Instr) (code : ErrCode) : Effect s i (raiseError code s)
  | nop : Effect s .nop (complete .ok s)
  | keyLoad (klen : BitVec 4) (sk : Vector Subkey 16) (hm : s.mode = .idle) :
      Effect s (.keyLoad klen) (complete .ok (loadSubkeys sk s))
  | keyFromDh (sk : Vector Subkey 16) (hm : s.mode = .idle) (hv : s.dhkeyValid = true) :
      Effect s .keyFromDh (complete .ok (loadSubkeys sk { s with key := s.dhkey }))
  | subkeyRead (r1 : BitVec 4) (x : Block) : Effect s (.subkeyRead r1) (complete .ok { s with dout := x })
  | permute (t : BitVec 4) (x : Block) : Effect s (.permute t) (complete .ok { s with dout := x })
  | sbox (b1 : BitVec 4) (x : Block) : Effect s (.sbox b1) (complete .ok { s with dout := x })
  | roundF (r1 : BitVec 4) (x : Block) (evs : List TraceEvent) :
      Effect s (.roundF r1) (complete .ok (emit evs { s with dout := x }))
  | blockEnc (x : Block) (evs : List TraceEvent) : Effect s .blockEnc (complete .ok (emit evs { s with dout := x }))
  | blockDec (x : Block) (evs : List TraceEvent) : Effect s .blockDec (complete .ok (emit evs { s with dout := x }))
  | cbcEncInit (iv : Block) (hk : s.keyValid = true) :
      Effect s .cbcEncInit (complete .ok { s with chain := iv, dout := iv, mode := .enc })
  | cbcEncBlock (c : Block) (evs : List TraceEvent) :
      Effect s .cbcEncBlock (complete .ok (emit evs { s with dout := c, chain := c }))
  | cbcEncFinal (n : BitVec 4) (c : Block) (evs : List TraceEvent) :
      Effect s (.cbcEncFinal n) (complete .ok (emit evs { s with dout := c, chain := c, mode := .idle }))
  | cbcDecInit (hk : s.keyValid = true) : Effect s .cbcDecInit (complete .ok { s with chain := s.din, mode := .dec })
  | cbcDecBlock (x : Block) (evs : List TraceEvent) :
      Effect s .cbcDecBlock (complete .ok (emit evs { s with dout := x, chain := s.din }))
  | cbcDecFinal (code : ErrCode) (x : Block) (n : BitVec 4) (evs : List TraceEvent) (hn : n.toNat ≤ 7) :
      Effect s .cbcDecFinal
        (complete code { emit evs { s with chain := s.din, mode := .idle } with dout := x, nbytes := n })
  | cbcAbort : Effect s .cbcAbort (complete .ok { s with mode := .idle })
  | dhInit (dflt : BitVec 4) (p g a pub : Big) (hp : 4 ≤ p.toNat) (ha : 2 ≤ a.toNat) (hap : a.toNat ≤ p.toNat - 2) :
      Effect s (.dhInit dflt)
        (complete .ok { s with
          p := p, g := g, psess := p, priv := a, pub := pub, ssec := 0, dhkey := 0, dhKeyed := true, dhkeyValid := false })
  | dhShared (S : Big) (k : Block) (hk : s.dhKeyed = true) :
      Effect s .dhShared (complete .ok { s with ssec := S, dhkey := k, dhkeyValid := true })
  | dhClear :
      Effect s .dhClear
        (complete .ok { s with priv := 0, ssec := 0, pub := 0, dhkey := 0, dhKeyed := false, dhkeyValid := false })
  | modexp (r : Big) : Effect s .modexp (complete .ok { s with mr := r })
  | softReset : Effect s .softReset { applyReset s with done := true }

/-- A failed check refuses the command (R138). -/
theorem Effect.guarded {s e : State} {i : Instr} {c : Prop} [Decidable c] {code : ErrCode} (h : ¬ c → Effect s i e) :
    Effect s i (if c then raiseError code s else e) := by
  split
  · exact .refused i code
  · exact h ‹_›

/-- The CBC checks refuse the command, or the key is there and the chain mode is the needed one (R111, R139). -/
theorem Effect.checked {s e : State} {i : Instr} {m : ChainMode} (h : s.keyValid = true → Effect s i e) :
    Effect s i (cbcChecked m s e) := by
  obtain ⟨-, he⟩ | ⟨-, -, he⟩ | ⟨hk, -, he⟩ := cbcChecked_cases m s e <;> rw [he]
  · exact .refused i _
  · exact .refused i _
  · exact h hk

/-- RESULT.NBYTES of a block with valid padding is at most 7 (R24, R117). -/
theorem validBytes_le {x : Block} (h : paddingOk x = true) : (validBytes x).toNat ≤ 7 := by
  obtain ⟨h1, -, -⟩ := (paddingOk_iff x).1 h
  have hL : 1 ≤ (byteOf x 7).toNat := by rw [byteOf_toNat]; exact h1
  rw [validBytes, BitVec.toNat_ofNat]
  omega

/-- CBC_DEC_FINAL past its checks ends the message, whether the padding is valid or not (R117). -/
theorem Effect.cbcDecFinal_ended {s : State} (x : Block) (evs : List TraceEvent) :
    Effect s .cbcDecFinal
      (if paddingOk x then
        complete .ok { emit evs { s with chain := s.din, mode := .idle } with
          dout := stripPadding x, nbytes := validBytes x }
      else complete .pad { emit evs { s with chain := s.din, mode := .idle } with dout := 0, nbytes := 0 }) := by
  split
  · exact .cbcDecFinal .ok _ _ _ (validBytes_le ‹_›)
  · exact .cbcDecFinal .pad _ _ _ (by decide)

/-- DH_INIT past its checks: the drawn exponent is in range of the valid parameters (R122, R124). -/
theorem Effect.dhInit_valid {s : State} (dflt : BitVec 4) {p g : Big} (hv : dhValid p.toNat g.toNat = true) (pub : Big) :
    Effect s (.dhInit dflt)
      (complete .ok { s with
        p := p, g := g, psess := p, priv := BitVec.ofNat 2048 (drawnExponent p.toNat s), pub := pub
        ssec := 0, dhkey := 0, dhKeyed := true, dhkeyValid := false }) := by
  obtain ⟨hp, -, -⟩ := (dhValid_iff _ _).1 hv
  obtain ⟨hlo, hhi⟩ := drawnExponent_mem p.toNat s hp
  have ha : (BitVec.ofNat 2048 (drawnExponent p.toNat s)).toNat = drawnExponent p.toNat s := by
    rw [BitVec.toNat_ofNat]
    exact Nat.mod_eq_of_lt (drawnExponent_lt s hp)
  exact .dhInit dflt p g _ pub hp (by rwa [ha]) (by rwa [ha])

/-- Every command leaves a state of its effects. -/
theorem exec_effect (i : Instr) (s : State) : ∃ t, exec i s = .next t ∧ Effect s i t := by
  cases i with
  | nop => exact ⟨_, rfl, .nop⟩
  | keyLoad klen => exact ⟨_, rfl, .guarded fun hm => .keyLoad klen _ (not_not.1 hm)⟩
  | keyFromDh =>
    exact ⟨_, rfl, .guarded fun hm => .guarded fun hv => .keyFromDh _ (not_not.1 hm) (Bool.eq_true_of_not_eq_false hv)⟩
  | subkeyRead r1 => exact ⟨_, rfl, .guarded fun _ => .subkeyRead r1 _⟩
  | permute t => exact ⟨_, rfl, .guarded fun _ => .permute t _⟩
  | sbox b1 => exact ⟨_, rfl, .guarded fun _ => .sbox b1 _⟩
  | roundF r1 => exact ⟨_, rfl, .guarded fun _ => .roundF r1 _ _⟩
  | blockEnc => exact ⟨_, rfl, .guarded fun _ => .blockEnc _ _⟩
  | blockDec => exact ⟨_, rfl, .guarded fun _ => .blockDec _ _⟩
  | cbcEncInit => exact ⟨_, rfl, .checked fun hk => .cbcEncInit _ hk⟩
  | cbcEncBlock => exact ⟨_, rfl, .checked fun _ => .cbcEncBlock _ _⟩
  | cbcEncFinal n => exact ⟨_, rfl, .guarded fun _ => .checked fun _ => .cbcEncFinal n _ _⟩
  | cbcDecInit => exact ⟨_, rfl, .checked fun hk => .cbcDecInit hk⟩
  | cbcDecBlock => exact ⟨_, rfl, .checked fun _ => .cbcDecBlock _ _⟩
  | cbcDecFinal => exact ⟨_, rfl, .checked fun _ => .cbcDecFinal_ended _ _⟩
  | cbcAbort => exact ⟨_, rfl, .cbcAbort⟩
  | dhInit dflt =>
    exact ⟨_, rfl, .guarded fun _ => .guarded fun hv => .dhInit_valid dflt (Bool.eq_true_of_not_eq_false hv) _⟩
  | dhShared => exact ⟨_, rfl, .guarded fun hk => .dhShared _ _ (Bool.eq_true_of_not_eq_false hk)⟩
  | dhClear => exact ⟨_, rfl, .dhClear⟩
  | modexp => exact ⟨_, rfl, .guarded fun _ => .modexp _⟩
  | softReset => exact ⟨_, rfl, .softReset⟩

/-- The inversion of `exec`: what a command has done is one of its effects. -/
theorem effect_of_exec {i : Instr} {s t : State} (h : exec i s = .next t) : Effect s i t := by
  obtain ⟨t', ht', he⟩ := exec_effect i s
  cases h.symm.trans ht'
  exact he

/-- R37, R150: a command emits events, if PTRACE = 1, and takes none back. -/
theorem exec_trace {i : Instr} {s t : State} (h : exec i s = .next t) : ∃ evs, t.trace = s.traceWith evs := by
  have quiet : s.trace = s.traceWith [] := by simp [State.traceWith]
  cases effect_of_exec h with
  | keyLoad _ sk | keyFromDh sk => exact ⟨subkeyEvents sk, rfl⟩
  | roundF _ _ evs | blockEnc _ evs | blockDec _ evs | cbcEncBlock _ evs | cbcEncFinal _ _ evs | cbcDecBlock _ evs
  | cbcDecFinal _ _ _ evs => exact ⟨evs, rfl⟩
  | _ => exact ⟨[], quiet⟩

end Sys2Proof.Machine
end

section
/-! SUPPORT. What a host access leaves unchanged, said once: everything but the registers that the host's writes reach and
the record of its reads (spec/20_memory.md rules R43–R45, R58). -/

namespace Sys2Proof.Machine

/-- The state with every field that a host access can change blanked: the registers that hold its writes, CTRL, STATUS's
own bits, what a CMD write issues, the record of its reads, and the moves to come, of which the access is used up. -/
def State.withoutHost (s : State) : State :=
  { s.withoutInputs with
    irqEn := false, traceEn := false, busy := false, done := false, busyViol := false
    cmd := 0, pend := 0, ptrace := false, busReads := [], schedule := [] }

/-- R25, R26, R30, R44: a write of a register that holds it changes such registers only. -/
theorem writeIdle_withoutInputs {r : WinReg} (h : r.holdsHost = true) (v : Word) (s : State) :
    (writeIdle r v s).withoutInputs = s.withoutInputs := by
  cases r with
  | key0 | key1 | din0 | din1 => rfl
  | big r k => cases r <;> rfl
  | _ => cases h

/-- R44: an idle write. -/
theorem writeIdle_withoutHost (r : WinReg) (v : Word) (s : State) : (writeIdle r v s).withoutHost = s.withoutHost := by
  cases r with
  | big r k => cases r <;> rfl
  | _ => rfl

/-- R44, R58: a write at any time. -/
theorem hostWrite_withoutHost (off : WordOff) (v : Word) (s : State) :
    (hostWrite off v s).withoutHost = s.withoutHost := by
  by_cases hb : s.busy = true
  · obtain ⟨-, h⟩ | ⟨-, h⟩ | ⟨-, -, h⟩ := hostWrite_busy off v s hb <;> rw [h] <;> rfl
  · rw [hostWrite_idle _ _ _ (Bool.eq_false_of_not_eq_true hb), writeIdle_withoutHost]

/-- R44, R58: a read at any time. -/
theorem hostRead_withoutHost (off : WordOff) (d : Word) (s : State) :
    (hostRead off d s).withoutHost = s.withoutHost := by
  obtain ⟨-, h⟩ | ⟨-, -, h⟩ := hostRead_cases off d s <;> rw [h] <;> rfl

/-- R37: what no host access changes includes the trace output. -/
theorem trace_of_withoutHost_eq {s t : State} (h : t.withoutHost = s.withoutHost) : t.trace = s.trace :=
  (congrArg State.trace h :)

end Sys2Proof.Machine
end

section
/-! SUPPORT. The moves as steps, where the laws above leave them out, and what a step can be. -/

namespace Sys2Proof.Machine

/-- R153: a scheduled reset, as a step. -/
theorem step_reset {s : State} {rest : List Turn} (h : s.schedule = .reset :: rest) :
    step s = .next (applyReset { s with schedule := rest }) := by
  rw [step, nextMove, h]; rfl

/-- R64, R65: while BUSY = 1, a pending word that is no command is rejected. -/
theorem coreStep_of_reject {s : State} {e : DecodeError} (d : Draw) (hb : s.busy = true) (he : decode s.pend = .error e) :
    coreStep d s = .next (rejectWord e s) := by
  rw [coreStep, if_pos hb, pendingWord, he]

/-- R18, R152: with BUSY = 0 the core's step does nothing. -/
theorem coreStep_idle {s : State} {d : Draw} (hb : s.busy = false) : coreStep d s = .next s := by
  rw [coreStep, hb]; rfl

/-- R20, R44, R58: a write of CTRL is the same at any time. -/
theorem step_write_ctrl {s : State} {v : Word} {rest : List Turn} (h : s.schedule = .write (wordOff 0x004) v :: rest) :
    step s = .next (writeCtrl v { s with schedule := rest }) := by
  have hreg : regAt (wordOff 0x004) = .ctrl := by decide
  rw [step_write h, hostWrite, hreg]
  exact congrArg _ (ite_self _)

/-- R21, R44, R58: a write of STATUS is the same at any time. -/
theorem step_write_status {s : State} {v : Word} {rest : List Turn} (h : s.schedule = .write (wordOff 0x008) v :: rest) :
    step s = .next (writeStatus v { s with schedule := rest }) := by
  have hreg : regAt (wordOff 0x008) = .status := by decide
  rw [step_write h, hostWrite, hreg]
  exact congrArg _ (ite_self _)

/-- What a step can be, the host's two accesses taken together: a core move, a host access, or reset. -/
theorem step_core_host_reset {s t : State} (h : step s = .next t) :
    (∃ d rest, s.coreNext d rest ∧ coreStep d { s with schedule := rest } = .next t) ∨
    t.withoutHost = s.withoutHost ∨
    (∃ rest, t = applyReset { s with schedule := rest }) := by
  obtain ⟨d, rest, hn, h'⟩ | ⟨off, d, rest, -, h'⟩ | ⟨off, v, rest, -, h'⟩ | ⟨rest, -, h'⟩ := step_cases s <;>
    rw [h'] at h
  · exact .inl ⟨d, rest, hn, h⟩
  · cases h
    exact .inr (.inl (hostRead_withoutHost _ _ _))
  · cases h
    exact .inr (.inl (hostWrite_withoutHost _ _ _))
  · cases h
    exact .inr (.inr ⟨rest, rfl⟩)

/-- R37, R150: the core's step emits events only when it executes a word with PTRACE = 1, and takes none back. -/
theorem coreStep_trace {d : Draw} {s t : State} (h : coreStep d s = .next t) :
    ∃ evs, t.trace = s.trace ++ evs ∧ (s.busy = false ∨ s.ptrace = false → evs = []) := by
  obtain ⟨-, h'⟩ | ⟨-, e, -, h'⟩ | ⟨hb, i, -, h'⟩ := coreStep_cases d s <;> rw [h'] at h
  · cases h
    exact ⟨[], by simp, fun _ => rfl⟩
  · cases h
    exact ⟨[], by cases e <;> simp [rejectWord], fun _ => rfl⟩
  · obtain ⟨evs, ht⟩ := exec_trace h
    rw [ht, hb]
    cases s.ptrace
    · exact ⟨[], by simp [State.traceWith], fun _ => rfl⟩
    · exact ⟨evs, by simp [State.traceWith], by simp⟩

end Sys2Proof.Machine
end

section
/-! SUPPORT. The state after reset (spec/10_state.md rule R39, spec/70_reset_and_hazards.md rule R153). -/

namespace Sys2Proof.Machine

/-- R39, R153: reset applied leaves every element at its reset value, whatever stood there. -/
theorem applyReset_atReset (s : State) : (applyReset s).atReset := by
  simp [State.atReset]

/-- R132: STATUS once reset is applied and DONE set. -/
theorem statusWord_softReset (s : State) : statusWord { applyReset s with done := true } = 0x00000002 := by
  apply BitVec.eq_of_toNat_eq
  rw [statusWord_toNat]
  rfl

end Sys2Proof.Machine
end

section
/-! SUPPORT. Every move keeps the invariants (spec/10_state.md rule R38). -/

namespace Sys2Proof.Machine

/-- The state with everything blanked that no invariant speaks of. -/
def State.invPart (s : State) : State :=
  { State.reset with
    mode := s.mode, keyValid := s.keyValid, sk := s.sk, nbytes := s.nbytes
    dhKeyed := s.dhKeyed, dhkeyValid := s.dhkeyValid, dhkey := s.dhkey, pub := s.pub
    priv := s.priv, ssec := s.ssec, psess := s.psess
    draw := default, lastDraw := default }

/-- The invariants speak of nothing else. -/
theorem invPart_inv (s : State) : s.invPart.Inv ↔ s.Inv :=
  ⟨fun ⟨h1, h2, h3, h4, h5, h6⟩ => ⟨h1, h2, h3, h4, h5, h6⟩, fun ⟨h1, h2, h3, h4, h5, h6⟩ => ⟨h1, h2, h3, h4, h5, h6⟩⟩

/-- A change of what no invariant speaks of keeps the invariants. -/
theorem State.Inv.of_invPart_eq {s t : State} (hs : s.Inv) (h : t.invPart = s.invPart) : t.Inv := by
  rwa [← invPart_inv, h, invPart_inv]

/-- A host access keeps the invariants. -/
theorem State.Inv.of_withoutHost_eq {s t : State} (hs : s.Inv) (h : t.withoutHost = s.withoutHost) : t.Inv :=
  hs.of_invPart_eq (congrArg State.invPart h :)

/-- R38, R39: reset establishes the invariants. -/
theorem applyReset_inv (s : State) : (applyReset s).Inv := by
  constructor <;> simp

/-- R38: every effect of a command keeps the invariants. -/
theorem Effect.keeps_inv {i : Instr} {s t : State} (he : Effect s i t) (hs : s.Inv) : t.Inv := by
  cases he with
  | refused | nop | subkeyRead | permute | sbox | roundF | blockEnc | blockDec | cbcEncBlock | cbcDecBlock | modexp =>
    exact hs.of_invPart_eq rfl
  | keyLoad | keyFromDh => exact { hs with mode_needs_key := fun _ => rfl, keyless_subkeys := nofun }
  | cbcEncInit _ hk | cbcDecInit hk => exact { hs with mode_needs_key := fun _ => hk }
  | cbcEncFinal | cbcAbort => exact { hs with mode_needs_key := fun h => absurd rfl h }
  | cbcDecFinal _ _ _ _ hn => exact { hs with mode_needs_key := fun h => absurd rfl h, nbytes_range := hn }
  | dhInit _ _ _ _ _ hp ha hap =>
    exact { hs with shared_needs_keyed := nofun, unkeyed_is_clear := nofun, keyed_range := fun _ => ⟨hp, ha, hap⟩ }
  | dhShared _ _ hk =>
    exact { hs with
      shared_needs_keyed := fun _ => hk
      unkeyed_is_clear := fun h => absurd (hk.symm.trans h) (by decide) }
  | dhClear =>
    exact { hs with
      shared_needs_keyed := nofun, unkeyed_is_clear := fun _ => ⟨rfl, rfl, rfl, rfl⟩, keyed_range := nofun }
  | softReset => exact (applyReset_inv s).of_invPart_eq rfl

/-- R38: the core's move keeps the invariants. -/
theorem coreStep_keeps_inv {d : Draw} {s t : State} (hs : s.Inv) (h : coreStep d s = .next t) : t.Inv := by
  obtain ⟨-, h'⟩ | ⟨-, e, -, h'⟩ | ⟨-, i, -, h'⟩ := coreStep_cases d s <;> rw [h'] at h
  · cases h
    exact hs
  · cases h
    cases e <;> exact hs.of_invPart_eq rfl
  · exact (effect_of_exec h).keeps_inv (hs.of_invPart_eq rfl)

end Sys2Proof.Machine
end

section
/-! SUPPORT. What depends on the confidential elements (spec/60_exceptions.md rule R146): two runs, on a state and on the
same state with other values in PRIV, SSEC and PSESS. -/

namespace Sys2Proof.Machine

/-- The state with other confidential elements and another left-over free input. -/
def State.withSecrets (a b c : Big) (d : Draw) (s : State) : State :=
  { s with priv := a, ssec := b, psess := c, draw := d }

/-- States that agree but for these differ by a change of these. -/
theorem eq_withSecrets {s t : State} (h : s.withoutSecrets = t.withoutSecrets) :
    t = s.withSecrets t.priv t.ssec t.psess t.draw := by
  have hput : ∀ u : State, u.withSecrets t.priv t.ssec t.psess t.draw =
      u.withoutSecrets.withSecrets t.priv t.ssec t.psess t.draw := fun _ => rfl
  rw [hput, h]
  rfl

section

variable (a b c : Big) (d : Draw) (s : State)

/-- R146: no register of the window shows a confidential element. -/
theorem regValue_withSecrets (r : WinReg) : regValue r (s.withSecrets a b c d) = regValue r s := by
  cases r with
  | big r k => cases r <;> rfl
  | _ => rfl

/-- R146: a read does not depend on the confidential elements. -/
theorem hostRead_withSecrets (off : WordOff) (drawn : Word) :
    hostRead off drawn (s.withSecrets a b c d) = (hostRead off drawn s).withSecrets a b c d := by
  rw [hostRead, hostRead, regValue_withSecrets, apply_ite (State.withSecrets a b c d)]
  rfl

/-- R146: an idle write does not depend on the confidential elements. -/
theorem writeIdle_withSecrets (r : WinReg) (v : Word) :
    writeIdle r v (s.withSecrets a b c d) = (writeIdle r v s).withSecrets a b c d := by
  cases r with
  | big r k => cases r <;> rfl
  | _ => rfl

/-- R146: nor does a write while BUSY = 1. -/
theorem writeBusy_withSecrets (r : WinReg) (v : Word) :
    writeBusy r v (s.withSecrets a b c d) = (writeBusy r v s).withSecrets a b c d := by
  cases r <;> rfl

/-- R146: a write at any time. -/
theorem hostWrite_withSecrets (off : WordOff) (v : Word) :
    hostWrite off v (s.withSecrets a b c d) = (hostWrite off v s).withSecrets a b c d := by
  rw [hostWrite, hostWrite, writeIdle_withSecrets, writeBusy_withSecrets, apply_ite (State.withSecrets a b c d)]
  rfl

/-- R64, R65: the completion of a word that is no command. -/
theorem rejectWord_withSecrets (e : DecodeError) :
    rejectWord e (s.withSecrets a b c d) = (rejectWord e s).withSecrets a b c d := by
  cases e <;> rfl

end

/-- R146: what may not depend on the confidential elements after a command: all but themselves, and after DH_SHARED all
but themselves and DHKEY. -/
def publicView : Instr → State → State
  | .dhShared, s => { s with dhkey := 0 }.withoutSecrets
  | _, s => s.withoutSecrets

theorem publicView_of_ne {i : Instr} (hi : i ≠ .dhShared) (s : State) : publicView i s = s.withoutSecrets := by
  cases i with
  | dhShared => exact absurd rfl hi
  | _ => rfl

/-- Blanking DHKEY too hides no less. -/
theorem withoutDhkey_congr {s t : State} (h : s.withoutSecrets = t.withoutSecrets) :
    { s with dhkey := 0 }.withoutSecrets = { t with dhkey := 0 }.withoutSecrets :=
  congrArg (fun u : State => { u with dhkey := 0 }) h

theorem withoutDhkey_of_publicView {i : Instr} {s t : State} (h : publicView i s = publicView i t) :
    { s with dhkey := 0 }.withoutSecrets = { t with dhkey := 0 }.withoutSecrets := by
  by_cases hi : i = .dhShared
  · subst hi
    exact h
  · rw [publicView_of_ne hi, publicView_of_ne hi] at h
    exact withoutDhkey_congr h

/-- Two states of one view stay so under a check whose condition is the same for both. -/
theorem ite_view {α : Type} (view : State → α) {c : Prop} [Decidable c] {x y x' y' : State} (hx : view x = view x')
    (hy : view y = view y') : view (if c then x else y) = view (if c then x' else y') := by
  rw [apply_ite view, apply_ite view, hx, hy]

/-- R125: the view after DH_SHARED leaves out the secret and the key derived from it, whatever they are. -/
theorem publicView_dhShared (a b c S S' : Big) (k k' : Block) (s : State) :
    publicView .dhShared (complete .ok { s with ssec := S, dhkey := k, dhkeyValid := true }) =
      publicView .dhShared
        (complete .ok { s.withSecrets a b c s.draw with ssec := S', dhkey := k', dhkeyValid := true }) :=
  rfl

/-- R35, R146: the checks of a command do not read the confidential elements, and but for DHKEY after DH_SHARED no value
it writes into any other element is made of them. -/
theorem exec_withSecrets (i : Instr) (a b c : Big) (s : State) :
    ∃ u v, exec i s = .next u ∧ exec i (s.withSecrets a b c s.draw) = .next v ∧ publicView i u = publicView i v := by
  cases i with
  | nop | cbcAbort | dhClear | softReset => exact ⟨_, _, rfl, rfl, rfl⟩
  | keyLoad | subkeyRead | permute | sbox | roundF | blockEnc | blockDec | modexp =>
    exact ⟨_, _, rfl, rfl, ite_view _ rfl rfl⟩
  | dhShared => exact ⟨_, _, rfl, rfl, ite_view _ rfl (publicView_dhShared a b c _ _ _ _ s)⟩
  | keyFromDh | cbcEncInit | cbcEncBlock | cbcDecInit | cbcDecBlock | dhInit =>
    exact ⟨_, _, rfl, rfl, ite_view _ rfl (ite_view _ rfl rfl)⟩
  | cbcEncFinal | cbcDecFinal => exact ⟨_, _, rfl, rfl, ite_view _ rfl (ite_view _ rfl (ite_view _ rfl rfl))⟩

/-- States of one view have one view with DHKEY blanked too, whatever else is asked for. -/
theorem views_of_eq {P : Prop} {u v : State} (h : u.withoutSecrets = v.withoutSecrets) :
    { u with dhkey := 0 }.withoutSecrets = { v with dhkey := 0 }.withoutSecrets ∧
      (P → u.withoutSecrets = v.withoutSecrets) :=
  ⟨withoutDhkey_congr h, fun _ => h⟩

section

variable (a b c : Big) (d : Draw) (s : State)

/-- R35, R146: the core's step, whose own free input replaces the left-over one. -/
theorem coreStep_withSecrets (drawn : Draw) :
    ∃ u v, coreStep drawn s = .next u ∧ coreStep drawn (s.withSecrets a b c d) = .next v ∧
      { u with dhkey := 0 }.withoutSecrets = { v with dhkey := 0 }.withoutSecrets ∧
      (¬ (s.busy = true ∧ decode s.pend = .ok .dhShared) → u.withoutSecrets = v.withoutSecrets) := by
  obtain ⟨hb, h⟩ | ⟨hb, e, he, h⟩ | ⟨hb, i, hi, h⟩ := coreStep_cases drawn s
  · exact ⟨_, _, h, coreStep_idle hb, views_of_eq rfl⟩
  · exact ⟨_, _, h, coreStep_of_reject drawn hb he, views_of_eq (by rw [rejectWord_withSecrets]; rfl)⟩
  · obtain ⟨u, v, hu, hv, huv⟩ := exec_withSecrets i a b c { s with draw := drawn }
    have hrun := coreStep_of_decode (s := s.withSecrets a b c d) drawn hb hi
    refine ⟨u, v, h.trans hu, hrun.trans hv, withoutDhkey_of_publicView huv, fun hne => ?_⟩
    have hi' : i ≠ .dhShared := by
      rintro rfl
      exact hne ⟨hb, hi⟩
    rwa [publicView_of_ne hi', publicView_of_ne hi'] at huv

/-- R35, R146: a step is the same move for both states. -/
theorem step_withSecrets :
    ∃ u v, step s = .next u ∧ step (s.withSecrets a b c d) = .next v ∧
      { u with dhkey := 0 }.withoutSecrets = { v with dhkey := 0 }.withoutSecrets ∧
      (¬ s.executes .dhShared → u.withoutSecrets = v.withoutSecrets) := by
  obtain ⟨drawn, rest, hn, h⟩ | ⟨off, drawn, rest, hn, h⟩ | ⟨off, w, rest, hn, h⟩ | ⟨rest, hn, h⟩ := step_cases s
  · obtain ⟨u, v, hu, hv, hdhkey, hview⟩ := coreStep_withSecrets a b c d { s with schedule := rest } drawn
    have hn' : (s.withSecrets a b c d).coreNext drawn rest := hn
    exact ⟨u, v, h.trans hu, (step_of_coreNext hn').trans hv, hdhkey,
      fun hne => hview fun ⟨hb, hi⟩ => hne ⟨hb, hi, drawn, rest, hn⟩⟩
  · have hread := hostRead_withSecrets a b c d { s with schedule := rest } off drawn
    exact ⟨_, _, h, (step_read (s := s.withSecrets a b c d) hn).trans (congrArg _ hread), views_of_eq rfl⟩
  · have hwrite := hostWrite_withSecrets a b c d { s with schedule := rest } off w
    exact ⟨_, _, h, (step_write (s := s.withSecrets a b c d) hn).trans (congrArg _ hwrite), views_of_eq rfl⟩
  · exact ⟨_, _, h, step_reset hn, views_of_eq rfl⟩

end

end Sys2Proof.Machine
end

section
/-! The statements of spec/10_state.md's family. -/

namespace Sys2Proof.Machine

/-- Settles O56: a core move is one of the effects of a command, which keep the invariants; a host access changes nothing
they speak of; and reset establishes them. -/
theorem stepKeepsInvariants : Obligations.StepKeepsInvariants := by
  intro s t hs h
  obtain ⟨d, rest, -, hcore⟩ | hhost | ⟨rest, rfl⟩ := step_core_host_reset h
  · have hs' : { s with schedule := rest }.Inv := hs.of_invPart_eq rfl
    exact coreStep_keeps_inv hs' hcore
  · exact hs.of_withoutHost_eq hhost
  · exact applyReset_inv _

/-- Settles O10: the register at the offset holds what the register map says. -/
theorem idleReadFollowsRegisterMap : Obligations.IdleReadFollowsRegisterMap := by
  intro s off d rest hb hread
  rw [step_read_idle hread hb, regValue_regAt]

/-- Settles O12: the offset's register holds the host's writes, no other offset has it, and a write of it changes such
registers only. -/
theorem inputWriteReplacesOneWord : Obligations.InputWriteReplacesOneWord := by
  intro s off v rest hb hoff hwrite
  have hholds : (regAt off).holdsHost = true := (holdsHost_regAt off).2 hoff
  refine ⟨_, step_write_idle hwrite hb, writeIdle_withoutInputs hholds _ _, fun off' => ?_⟩
  have hsame : regAt off' = regAt off ↔ off' = off := ⟨regAt_injective off off' hholds, congrArg regAt⟩
  rw [← regValue_toNat, ← regValue_toNat, regValue_writeIdle _ _ _ _ hholds, regValue_schedule, apply_ite BitVec.toNat]
  simp only [hsame]

/-- Settles O57: each effect is compared with the state it starts from, register by register. -/
theorem onlyTheseCommandsWrite : Obligations.OnlyTheseCommandsWrite := by
  intro i s t h
  cases effect_of_exec h with
  | softReset => simp [Instr.op]
  | refused => simp
  | _ => simp [Instr.op, loadSubkeys]

/-- Settles O58: a core move emits what its command does, if PTRACE = 1, and no other move touches the trace. -/
theorem traceOnlyGrows : Obligations.TraceOnlyGrows := by
  intro s t h
  obtain ⟨d, rest, hn, hcore⟩ | hhost | ⟨rest, rfl⟩ := step_core_host_reset h
  · obtain ⟨evs, ht, hquiet⟩ := coreStep_trace hcore
    exact ⟨evs, ht, fun hc => hquiet (hc.imp_right (·.resolve_right (not_not.2 ⟨d, rest, hn⟩)))⟩
  · exact ⟨[], by rw [trace_of_withoutHost_eq hhost, List.append_nil], fun _ => rfl⟩
  · exact ⟨[], by simp, fun _ => rfl⟩

/-- Settles O60: the two runs make the same move, which is the core's, a read, a write, or reset. -/
theorem secretsStayInside : Obligations.SecretsStayInside := by
  intro s t hst
  rw [eq_withSecrets hst]
  exact step_withSecrets _ _ _ _ s

/-- Settles O7: the core's move with no word pending. -/
theorem idleCoreKeepsState : Obligations.IdleCoreKeepsState := by
  intro s d rest hb hn
  rw [step_of_coreNext hn]
  exact coreStep_idle hb

/-- Settles O11: CMD stands at its offset, a write of it issues or is dropped, and it reads as it stands at any time. -/
theorem cmdWriteIssues : Obligations.CmdWriteIssues := by
  have hreg : regAt (wordOff 0x010) = .cmd := by decide
  refine ⟨fun s w rest hb hwrite => ?_, fun s w rest hb hwrite => ?_, fun s d rest hread => ?_, rfl⟩
  · rw [step_write_idle hwrite hb, hreg]
    rfl
  · obtain ⟨hoff, -⟩ | ⟨hoff, -⟩ | ⟨-, -, hstep⟩ := step_write_busy hb hwrite
    · cases hoff
    · cases hoff
    · exact hstep
  · rw [step_read_live hread (by decide), ← regValue_regAt, hreg]
    rfl

/-- Settles O14: both registers take a write at any time. -/
theorem ctrlAndStatusWrites : Obligations.CtrlAndStatusWrites := by
  refine ⟨fun s v rest hwrite => ?_, fun s v rest hwrite => ?_⟩
  · exact ⟨_, step_write_ctrl hwrite, rfl, rfl⟩
  · exact ⟨_, step_write_status hwrite, writeStatus_eq _ _, (Bool.and_assoc _ _ _).symm⟩

/-- Settles O17: the reset state is what reset makes of itself, and reset brings any state there. -/
theorem resetValues : Obligations.ResetValues :=
  ⟨applyReset_atReset State.reset, rfl, rfl, rfl, rfl, fun s => ⟨applyReset_atReset s, rfl, rfl, rfl⟩⟩

/-- Settles O18: the step is reset applied, which keeps the trace and what is not CSCORE's. -/
theorem hardwareResetStep : Obligations.HardwareResetStep := by
  intro s rest h
  exact ⟨_, step_reset h, applyReset_atReset _, rfl, rfl, rfl, rfl, rfl, rfl, rfl⟩

/-- Settles O19: reset applied, and DONE set. -/
theorem softResetCompletes : Obligations.SoftResetCompletes := by
  intro s
  exact ⟨_, rfl, applyReset_atReset s, rfl, statusWord_softReset s, rfl, rfl, rfl, rfl, rfl, rfl⟩

/-- Settles O55: the reset state is what reset makes of itself, and reset establishes the invariants. -/
theorem invariantsHoldAtReset : Obligations.InvariantsHoldAtReset :=
  applyReset_inv State.reset

end Sys2Proof.Machine
end

section
/-! SUPPORT. Idle host accesses one after another: what each step leaves of the registers and of the record of reads
(spec/20_memory.md rules R44, R46). -/

namespace Sys2Proof.Machine

/-- What the host has read is no register's value. -/
theorem regValue_deliver (r : WinReg) (v : Word) (s : State) : regValue r (deliver v s) = regValue r s := by
  cases r with
  | big r k => cases r <;> rfl
  | _ => rfl

variable {s : State} {off off' : WordOff} {rest : List Turn}

/-- R44: an idle read delivers the register's value and changes no register. -/
theorem step_read_idle_keeps {d : Word} (hb : s.busy = false) (h : s.schedule = .read off d :: rest) :
    ∃ t, step s = .next t ∧ t.busy = false ∧ t.schedule = rest ∧
      t.busReads = s.busReads ++ [regValue (regAt off) s] ∧ ∀ r, regValue r t = regValue r s :=
  ⟨_, step_read_idle h hb, hb, rfl, rfl, fun r => by
    rw [← regValue_schedule r s rest]
    exact regValue_deliver r _ { s with schedule := rest }⟩

/-- R44: an idle write of a register that holds it replaces that register's value and no other's, and is no read. -/
theorem step_write_idle_replaces {v : Word} (hb : s.busy = false) (hoff : (regAt off).holdsHost = true)
    (h : s.schedule = .write off v :: rest) :
    ∃ t, step s = .next t ∧ t.busy = false ∧ t.schedule = rest ∧ t.busReads = s.busReads ∧
      ∀ r, regValue r t = if r = regAt off then v else regValue r s := by
  have hkept := writeIdle_withoutInputs hoff v { s with schedule := rest }
  refine ⟨_, step_write_idle h hb, ?_, ?_, ?_, fun r => ?_⟩
  · exact (congrArg State.busy hkept :).trans hb
  · exact (congrArg State.schedule hkept :)
  · exact (congrArg State.busReads hkept :)
  · rw [regValue_writeIdle _ _ _ _ hoff, regValue_schedule]

/-- R44, R46: two words written to different registers that hold them read back as written. -/
theorem run_writes_then_reads {v v' d d' : Word} (hb : s.busy = false) (hoff : (regAt off).holdsHost = true)
    (hoff' : (regAt off').holdsHost = true) (hne : regAt off ≠ regAt off')
    (h : s.schedule = [.write off v, .write off' v', .read off d, .read off' d']) :
    ∃ t, core.run 4 s = .next t ∧ t.busReads = s.busReads ++ [v, v'] := by
  obtain ⟨t1, h1, hb1, hs1, hr1, hv1⟩ := step_write_idle_replaces hb hoff h
  obtain ⟨t2, h2, hb2, hs2, hr2, hv2⟩ := step_write_idle_replaces hb1 hoff' hs1
  obtain ⟨t3, h3, hb3, hs3, hr3, hv3⟩ := step_read_idle_keeps hb2 hs2
  obtain ⟨t4, h4, -, -, hr4, -⟩ := step_read_idle_keeps hb3 hs3
  have hfirst : regValue (regAt off) t2 = v := by rw [hv2, if_neg hne, hv1, if_pos rfl]
  have hsecond : regValue (regAt off') t3 = v' := by rw [hv3, hv2, if_pos rfl]
  refine ⟨t4, ?_, ?_⟩
  · rw [run_succ h1, run_succ h2, run_succ h3, run_succ h4]
    rfl
  · rw [hr4, hsecond, hr3, hfirst, hr2, hr1, List.append_assoc, List.singleton_append]

/-- R25, R26, R68: KEY and DIN are pairs of two different registers that hold the host's writes. -/
theorem pairRegs_hold {r : PairReg} (hr : r = .key ∨ r = .din) :
    (regAt (offsetOf (pairRegs r).1)).holdsHost = true ∧ (regAt (offsetOf (pairRegs r).2)).holdsHost = true ∧
      regAt (offsetOf (pairRegs r).1) ≠ regAt (offsetOf (pairRegs r).2) := by
  obtain rfl | rfl := hr <;> decide

/-- R68: `rd64` puts the words of a block together again. -/
theorem rd64_value_words (r : PairReg) (x : Block) : (HostOp.rd64 r).value [hiWord x, loWord x] = x.toNat := by
  have hwords := congrArg BitVec.toNat (hiWord_append_loWord x)
  rw [append_words_toNat] at hwords
  simpa [HostOp.value] using hwords

end Sys2Proof.Machine
end

section
/-! The statements of spec/20_memory.md's family. -/

namespace Sys2Proof.Machine

/-- Settles O13: what stands at such an offset holds no writes and is none of CTRL, STATUS and CMD. -/
theorem readOnlyWriteIsIgnored : Obligations.ReadOnlyWriteIsIgnored := by
  intro s off v rest hb hoff h1 h2 h4 hwrite
  obtain ⟨-, hctrl, hstatus, hcmd⟩ := regAt_live off
  have hreadOnly : (regAt off).holdsHost = false := Bool.eq_false_of_not_eq_true (mt (holdsHost_regAt off).1 hoff)
  rw [step_write_idle hwrite hb, writeIdle_readOnly _ hreadOnly (mt hctrl.1 h1) (mt hstatus.1 h2) (mt hcmd.1 h4)]

/-- Settles O16: `wr64` writes the two words of the value and `rd64` reads the same two registers. -/
theorem pairWriteReadsBack : Obligations.PairWriteReadsBack := by
  intro s r x c c' hb hr
  obtain ⟨hhi, hlo, hne⟩ := pairRegs_hold hr
  obtain ⟨t, hrun, hreads⟩ := run_writes_then_reads
    (s := { s with schedule := programTurns [.op (.wr64 r x) c, .op (.rd64 r) c'] }) hb hhi hlo hne rfl
  exact ⟨t, hiWord x, loWord x, hrun, hreads, hiWord_toNat x, loWord_toNat x, rd64_value_words r x⟩

end Sys2Proof.Machine
end

section
/-! SUPPORT. Command words and the core's step on them (spec/30_encoding.md rules R60–R65, R69), and the values that SBOX
and SUBKEY_READ place in DOUT (spec/42_round_block.md rule R102, spec/41_permute_keysched.md rule R95). -/

namespace Sys2Proof.Machine

/-- R63: a command's opcode is legal. -/
theorem op_mem_legalOpcodes (i : Instr) : i.op ∈ legalOpcodes := by
  cases i <;> simp [Instr.op, legalOpcodes]

/-- R63: the opcode map's row for a command's opcode makes that command of its argument. -/
theorem row_of_op (i : Instr) :
    ∃ row, opcodeMap.find? (fun row => row.op == i.op) = some row ∧ row.build i.arg = i := by
  cases i <;> exact ⟨_, rfl, rfl⟩

/-- R63: opcode and argument determine the command. -/
theorem eq_of_op_of_arg {i j : Instr} (hop : i.op = j.op) (harg : i.arg = j.arg) : i = j := by
  obtain ⟨row, hrow, hi⟩ := row_of_op i
  obtain ⟨row', hrow', hj⟩ := row_of_op j
  rw [hop, hrow'] at hrow
  cases hrow
  rw [← hi, ← hj, harg]

/-- R61: the well-formed commands are those whose argument is in the legal set of their opcode. -/
theorem wellFormed_iff_legalArg (i : Instr) : i.wellFormed = true ↔ legalArg i.op i.arg := by
  rw [← legalArgBool_iff]
  cases i with
  | keyLoad a | subkeyRead a | permute a | sbox a | roundF a | cbcEncFinal a | dhInit a => revert a; decide
  | _ => decide

/-- R60, R63: the fields of a command's word. -/
theorem fields_encode (i : Instr) : opField (encode i) = i.op ∧ argField (encode i) = i.arg ∧ rsvField (encode i) = 0 :=
  Laws.fields_of_wordOfFields 0 i.arg i.op

/-- R65: a word that decodes has a legal opcode, a zero RSV and the command's opcode and argument. -/
theorem fields_of_decode {w : Word} {i : Instr} (h : decode w = .ok i) :
    i.wellFormed = true ∧ opField w = i.op ∧ argField w = i.arg ∧ rsvField w = 0 := by
  by_cases hop : opField w ∈ legalOpcodes
  · obtain ⟨-, herr⟩ | ⟨hrsv, -, j, hj, hwf, hjop, hjarg⟩ := decode_of_legal hop
    · cases h.symm.trans herr
    · cases h.symm.trans hj
      exact ⟨hwf, hjop.symm, hjarg.symm, hrsv⟩
  · cases h.symm.trans (decode_of_illegal hop)

/-- R64, R65: the core's move on a pending word that is no command. -/
theorem step_of_reject {s : State} {d : Draw} {rest : List Turn} {e : DecodeError} (hb : s.busy = true)
    (hn : s.coreNext d rest) (he : decode s.pend = .error e) :
    step s = .next (rejectWord e { s with schedule := rest }) := by
  rw [step_of_coreNext hn]
  exact coreStep_of_reject d hb he

/-- A rejected word completes and leaves the moves to come (R69). -/
theorem rejectWord_completes (e : DecodeError) (s : State) :
    (rejectWord e s).busy = false ∧ (rejectWord e s).done = true ∧ (rejectWord e s).schedule = s.schedule := by
  cases e <;> exact ⟨rfl, rfl, rfl⟩

/-- R69, R137: the core's step with a word pending completes, whatever the word, and leaves the moves to come. -/
theorem coreStep_completes (d : Draw) {s : State} (hb : s.busy = true) :
    ∃ t, coreStep d s = .next t ∧ t.busy = false ∧ t.done = true ∧ t.schedule = s.schedule := by
  obtain ⟨hidle, -⟩ | ⟨-, e, -, hstep⟩ | ⟨-, i, -, hstep⟩ := coreStep_cases d s
  · exact absurd (hb.symm.trans hidle) (by decide)
  · exact ⟨_, hstep, rejectWord_completes e s⟩
  · obtain ⟨t, ht⟩ := exec_next i { s with draw := d }
    obtain ⟨hbusy, hdone⟩ := exec_completes _ _ _ ht
    exact ⟨t, hstep.trans ht, hbusy, hdone, (exec_keeps_host _ _ _ ht).1⟩

/-- DIN0[5:0] as a number (R102). -/
theorem sboxGroup_toNat (s : State) : (sboxGroup s).toNat = s.din.toNat / 2 ^ 32 % 64 := by
  rw [sboxGroup, BitVec.extractLsb'_toNat, hiWord_toNat]
  rfl

/-- A block whose DOUT0 is `v` and whose DOUT1 is 0, as a number (R46, R102). -/
theorem lowZero_eq (v : Word) : lowZero v = BitVec.ofNat 64 (v.toNat * 2 ^ 32) := by
  have hval : (lowZero v).toNat = v.toNat * 2 ^ 32 := by
    simp [lowZero, append_words_toNat]
  rw [← hval, BitVec.ofNat_toNat, BitVec.setWidth_eq]

end Sys2Proof.Machine
end

section
/-! The statements of spec/30_encoding.md's family. -/

namespace Sys2Proof.Machine

/-- Settles O2: the word has the command's opcode and argument, which are legal and determine the command. -/
theorem decodeInvertsEncode : Obligations.DecodeInvertsEncode := by
  intro i hwf
  obtain ⟨hop, harg, hrsv⟩ := fields_encode i
  have hlegal : opField (encode i) ∈ legalOpcodes := hop ▸ op_mem_legalOpcodes i
  obtain ⟨hbad, -⟩ | ⟨-, -, j, hj, -, hjop, hjarg⟩ := decode_of_legal hlegal
  · rw [hop, harg, ← wellFormed_iff_legalArg] at hbad
    exact hbad.elim (absurd hrsv) (absurd hwf)
  · rw [hj, eq_of_op_of_arg (hjop.trans hop) (hjarg.trans harg)]

/-- Settles O3: the word's fields are the command's, and a word is its fields. -/
theorem decodedWordIsTheEncoding : Obligations.DecodedWordIsTheEncoding := by
  intro w i h
  obtain ⟨hwf, hop, harg, hrsv⟩ := fields_of_decode h
  refine ⟨hwf, ?_⟩
  rw [encode, ← hop, ← harg, ← hrsv, wordOfFields_fields]

/-- Settles O4: the word is rejected as ILLEGAL at decode, and the opcodes are enumerated. -/
theorem illegalOpcodeOnlyCompletes : Obligations.IllegalOpcodeOnlyCompletes := by
  refine ⟨rfl, fun s d rest hb hn hop => ?_, by decide +kernel⟩
  exact step_of_reject hb hn (decode_of_illegal hop)

/-- Settles O5: a word with a legal opcode is rejected as BAD_ARG at decode, or it is a command and executed. -/
theorem malformedWordOnlyCompletes : Obligations.MalformedWordOnlyCompletes := by
  refine ⟨rfl, fun s d rest hb hn hop => ?_⟩
  obtain ⟨hbad, hdec⟩ | ⟨hrsv, harg, i, hdec, -, hiop, hiarg⟩ := decode_of_legal hop
  · exact ⟨fun _ => step_of_reject hb hn hdec, fun hrsv harg => hbad.elim (absurd hrsv) (absurd harg)⟩
  · refine ⟨fun hbad => hbad.elim (absurd hrsv) (absurd harg), fun _ _ => ⟨i, hiop, hiarg, ?_⟩⟩
    exact stepRunsPendingCommand s d rest i hb hn hdec

/-- Settles O8: the core's step completes whatever word is pending, and with DONE set the interrupt is IRQ_EN. -/
theorem issuedWordCompletes : Obligations.IssuedWordCompletes := by
  intro s d rest hb hn
  obtain ⟨t, hstep, hbusy, hdone, hsched⟩ := coreStep_completes (s := { s with schedule := rest }) d hb
  refine ⟨t, (step_of_coreNext hn).trans hstep, hbusy, hdone, hsched, ?_⟩
  rw [irq, hdone, Bool.and_true]

/-- Settles O24: the four commands that can be ill-formed check the argument first; the others are well-formed. -/
theorem illegalArgumentIsRefused : Obligations.IllegalArgumentIsRefused := by
  intro i s h
  cases i with
  | permute | sbox | cbcEncFinal | dhInit =>
    exact congrArg Host.Outcome.next (if_pos (not_le.1 (of_decide_eq_false h)))
  | _ => cases h

/-- Settles O33: the argument check passes, and the entry looked up is that of the group's number. -/
theorem sboxLooksUpEntry : Obligations.SboxLooksUpEntry := by
  intro b1 s hb1
  have hentry : ((sboxLookup (boxIndex b1) (sboxGroup s)).setWidth 32).toNat =
      sboxEntry b1.toNat (s.din.toNat / 2 ^ 32 % 64) := by
    rw [BitVec.toNat_setWidth_of_le (by decide), boxIndex, sboxLookup_toNat _ (by omega), sboxGroup_toNat]
  rw [exec, execSbox, if_neg (by omega), lowZero_eq, hentry]
  rfl

/-- Settles O1: each word is decoded. -/
theorem specWordsDecode : Obligations.SpecWordsDecode := by
  unfold Obligations.SpecWordsDecode
  decide

/-- Settles O30: the key check passes, and SK[ARG + 1] stands at index ARG. -/
theorem subkeyReadCopiesSubkey : Obligations.SubkeyReadCopiesSubkey := by
  intro r1 s hk
  rw [exec, execSubkeyRead, if_neg (by simp [hk]), roundIndex, subkeyOf_eq]
  rfl

end Sys2Proof.Machine
end

section
/-! SUPPORT. The key commands and BLOCK_ENC where their checks pass, and what a key schedule reads of its key
(spec/41_permute_keysched.md rules R91–R94, R97; spec/42_round_block.md rule R104). -/

namespace Sys2Proof.Machine

/-- R93: KEY_LOAD in chain mode IDLE. -/
theorem exec_keyLoad (klen : BitVec 4) {s : State} (hm : s.mode = .idle) :
    exec (.keyLoad klen) s = .next { s with
      sk := keySchedule (normKey s.key klen)
      keyValid := true
      trace := s.traceWith (subkeyEvents (keySchedule (normKey s.key klen)))
      err := .ok, done := true, busy := false } := by
  rw [exec, execKeyLoad, if_neg (not_not.2 hm)]
  rfl

/-- R91: with KLEN = 8 the normalised key is the whole of KEY. -/
theorem normKey_eight (key : Block) : normKey key 8 = key :=
  block_eq_of_bytes fun k hk => by rw [normKey, byteOf_blockOfFn _ _ hk]; exact if_pos hk

/-- R94: KEY_FROM_DH in chain mode IDLE with a derived key. -/
theorem exec_keyFromDh {s : State} (hm : s.mode = .idle) (hv : s.dhkeyValid = true) :
    exec .keyFromDh s = .next { s with
      key := s.dhkey
      sk := keySchedule s.dhkey
      keyValid := true
      trace := s.traceWith (subkeyEvents (keySchedule s.dhkey))
      err := .ok, done := true, busy := false } := by
  rw [exec, execKeyFromDh, if_neg (not_not.2 hm), if_neg (by simp [hv]), normKey_eight]
  rfl

/-- R104: BLOCK_ENC with a loaded key. -/
theorem exec_blockEnc {s : State} (hk : s.keyValid = true) :
    exec .blockEnc s = .next { s with
      dout := desBlock s.sk true s.din
      trace := s.traceWith (desEvents s.sk true s.din)
      err := .ok, done := true, busy := false } := by
  rw [exec, execBlockEnc, if_neg (by simp [hk])]
  rfl

/-- R87: a table reads its own positions only. -/
theorem permute_congr {n m : Nat} {T : List Nat} {x y : BitVec n} (h : ∀ j ∈ T, bitAt x j = bitAt y j) :
    permute m T x = permute m T y := by
  rw [permute, permute, List.foldl_ext _ _ _ fun acc j hj => by rw [h j hj]]

/-- R46: a position of a block that is no multiple of 8 is a bit of one of its bytes, bit 0 of that byte left out. -/
theorem bitAt_eq_testBit_byte (x : Block) (j : Nat) (hj : j ≤ 64) (hpar : j % 8 ≠ 0) :
    bitAt x j = (byteNat x (j / 8) / 2).testBit (7 - j % 8) := by
  have hpos : 64 - 1 - (j - 1) = 56 - 8 * (j / 8) + (7 - j % 8 + 1) := by omega
  rw [bitAt, BitVec.getMsbD_eq_getLsbD, decide_eq_true (by omega), Bool.true_and, hpos, byteNat, ← Nat.testBit_succ,
    show 256 = 2 ^ 8 from rfl, Nat.testBit_mod_two_pow, decide_eq_true (by omega), Bool.true_and,
    Nat.testBit_div_two_pow, Nat.add_comm]
  rfl

/-- R97: PC1 reads positions 1..64 of the key that are no parity positions. -/
theorem pc1Table_skips_parity : ∀ j ∈ pc1Table, j ≤ 64 ∧ j % 8 ≠ 0 := by decide

/-- R92: the sixteen subkeys are those of the rounds on the two halves of PC1's output. -/
theorem keySchedule_toList (nk : Block) :
    (keySchedule nk).toList = scheduleRounds shiftTable (subseq (permute 56 pc1Table nk) 1 28)
      (subseq (permute 56 pc1Table nk) 29 28) := by
  simp [keySchedule]

/-- R97: the key schedule does not read bit 0 of a key byte. -/
theorem keySchedule_congr {x y : Block} (h : ∀ k < 8, byteNat x k / 2 = byteNat y k / 2) :
    keySchedule x = keySchedule y := by
  have hpc1 : permute 56 pc1Table x = permute 56 pc1Table y := permute_congr fun j hj => by
    obtain ⟨hle, hpar⟩ := pc1Table_skips_parity j hj
    rw [bitAt_eq_testBit_byte x j hle hpar, bitAt_eq_testBit_byte y j hle hpar, h _ (by omega)]
  exact Vector.toList_inj.1 (by rw [keySchedule_toList, keySchedule_toList, hpc1])

/-- R91, R97: keys that differ in parity bits only are normalised to such keys. -/
theorem normKey_parity {x y : Block} (klen : BitVec 4) (h : ∀ k < 8, byteNat x k / 2 = byteNat y k / 2) :
    ∀ k < 8, byteNat (normKey x klen) k / 2 = byteNat (normKey y klen) k / 2 := fun k hk => by
  rw [byteNat_normKey x klen k hk, byteNat_normKey y klen k hk]
  split
  · exact h k hk
  · rfl

end Sys2Proof.Machine
end

section
/-! The statements of spec/41_permute_keysched.md's family. -/

namespace Sys2Proof.Machine

/-- Settles O28: the schedule is that of the normalised key, whose bytes are `byteNat_normKey`'s. -/
theorem keyLoadComputesSchedule : Obligations.KeyLoadComputesSchedule := by
  intro klen s hm
  refine ⟨normKey s.key klen, _, byteNat_normKey s.key klen, keySchedule_isSchedule _, ?_⟩
  rw [exec_keyLoad klen hm, subkeyEvents_eq]

/-- Settles O29: KLEN = 8 leaves DHKEY whole, so the schedule is DHKEY's. -/
theorem keyFromDhLoadsDerivedKey : Obligations.KeyFromDhLoadsDerivedKey := by
  intro s hm hv
  refine ⟨_, keySchedule_isSchedule s.dhkey, ?_⟩
  rw [exec_keyFromDh hm hv, subkeyEvents_eq]

/-- Settles O32: the two loads compute the same schedule, and BLOCK_ENC reads nothing else of the key. -/
theorem parityBitsDoNotMatter : Obligations.ParityBitsDoNotMatter := by
  refine ⟨fun j hj => (pc1Table_skips_parity j hj).2, fun klen s key' hm hkeys => ?_⟩
  have hsk : keySchedule (normKey s.key klen) = keySchedule (normKey key' klen) :=
    keySchedule_congr (normKey_parity klen hkeys)
  refine ⟨_, _, exec_keyLoad klen hm, exec_keyLoad klen hm, hsk, fun b => ?_⟩
  exact ⟨_, _, exec_blockEnc rfl, exec_blockEnc rfl, congrArg (desBlock · true b) hsk⟩

/-- Settles O23: each check fails, the chain mode of KEY_FROM_DH and the argument of DH_INIT having passed. -/
theorem dhAndModexpChecks : Obligations.DhAndModexpChecks := by
  refine ⟨fun s hkeyed => ?_, fun s hm hv => ?_, fun s hvalid => ?_, fun s hmm => ?_⟩
  · rw [exec, execDhShared, if_pos hkeyed]
    rfl
  · rw [exec, execKeyFromDh, if_neg (not_not.2 hm), if_pos hv]
    rfl
  · have hinvalid : dhValid s.p.toNat s.g.toNat = false := Bool.eq_false_of_not_eq_true (mt (dhValid_iff _ _).1 hvalid)
    exact congrArg Host.Outcome.next ((if_neg (by decide)).trans (if_pos hinvalid))
  · rw [exec, execModexp, if_pos hmm]
    rfl

end Sys2Proof.Machine
end

section
/-! SUPPORT. ROUND_F and BLOCK_DEC where their check passes (spec/42_round_block.md rules R103, R105). -/

namespace Sys2Proof.Machine

/-- ROUND_F reads DIN0, the upper half of DIN as a number (R46, R103). -/
theorem roundInput_eq (s : State) : roundInput s = BitVec.ofNat 32 (s.din.toNat / 2 ^ 32) := by
  rw [← hiWord_toNat, BitVec.ofNat_toNat, BitVec.setWidth_eq, roundInput]

/-- R103: ROUND_F with a loaded key. -/
theorem exec_roundF (r1 : BitVec 4) {s : State} (hk : s.keyValid = true) :
    exec (.roundF r1) s = .next { s with
      dout := lowZero (roundF (roundInput s) (s.sk.toList.getD r1.toNat 0))
      trace := s.traceWith [roundEvent (r1.toNat + 1) (roundInput s) (s.sk.toList.getD r1.toNat 0)]
      err := .ok, done := true, busy := false } := by
  rw [exec, execRoundF, if_neg (by simp [hk]), roundIndex, subkeyOf_eq]
  rfl

/-- R105: BLOCK_DEC with a loaded key. -/
theorem exec_blockDec {s : State} (hk : s.keyValid = true) :
    exec .blockDec s = .next { s with
      dout := desBlock s.sk false s.din
      trace := s.traceWith (desEvents s.sk false s.din)
      err := .ok, done := true, busy := false } := by
  rw [exec, execBlockDec, if_neg (by simp [hk])]
  rfl

end Sys2Proof.Machine
end

section
/-! The statements of spec/42_round_block.md's family. -/

namespace Sys2Proof.Machine

/-- Settles O34: the event's fields and DOUT0 are those of one round on DIN0. -/
theorem roundFEvaluatesF : Obligations.RoundFEvaluatesF := by
  intro r1 s hk
  rw [← roundInput_eq]
  exact ⟨_, _, _, roundF_isRound _ _, exec_roundF r1 hk⟩

/-- Settles O35: both commands run `desBlock` on DIN, which is R100's sixteen rounds in either order of the subkeys. -/
theorem blockCommandsRunSixteenRounds : Obligations.BlockCommandsRunSixteenRounds := by
  intro s hk
  exact ⟨⟨_, _, desBlock_isBlock s.sk true s.din, exec_blockEnc hk⟩,
    ⟨_, _, desBlock_isBlock s.sk false s.din, exec_blockDec hk⟩⟩

/-- Settles O36: neither command touches SK, so the second undoes the first (`desBlock_not`). -/
theorem blockRoundTrip : Obligations.BlockRoundTrip := by
  intro s hk
  constructor
  · exact ⟨_, _, exec_blockEnc hk, exec_blockDec hk, desBlock_not s.sk true s.din⟩
  · exact ⟨_, _, exec_blockDec hk, exec_blockEnc hk, desBlock_not s.sk false s.din⟩

end Sys2Proof.Machine
end

section
/-! SUPPORT. The CBC commands where their checks pass (spec/43_cbc.md rules R113–R117), and the bytes of the blocks they
pad and unpad (R106, R107). -/

namespace Sys2Proof.Machine

/-- R46: a byte as a number. -/
theorem byteNat_eq_toNat (x : Block) (k : Nat) : byteNat x k = (byteOf x k).toNat :=
  (byteOf_toNat x k).symm

/-- R106, R114: the bytes of a padded block. -/
theorem byteNat_paddedBlock (din : Block) (n : BitVec 4) (k : Nat) (hk : k < 8) :
    byteNat (paddedBlock din n) k = if k < n.toNat then byteNat din k else 8 - n.toNat := by
  rw [byteNat_eq_toNat, byteNat_eq_toNat, paddedBlock, byteOf_blockOfFn _ _ hk, apply_ite BitVec.toNat, padLength,
    BitVec.toNat_ofNat, Nat.mod_eq_of_lt (by omega)]

/-- R117: the bytes of a block with its padding zeroed. -/
theorem byteNat_stripPadding (p : Block) (k : Nat) (hk : k < 8) :
    byteNat (stripPadding p) k = if k < 8 - byteNat p 7 then byteNat p k else 0 := by
  rw [byteNat_eq_toNat, byteNat_eq_toNat, byteNat_eq_toNat, stripPadding, byteOf_blockOfFn _ _ hk,
    apply_ite BitVec.toNat]
  rfl

/-- R117: RESULT.NBYTES of a block with valid padding, as a number. -/
theorem validBytes_toNat {p : Block} (h : paddingOk p = true) : (validBytes p).toNat = 8 - (byteOf p 7).toNat := by
  obtain ⟨hpos, -, -⟩ := (paddingOk_iff p).1 h
  rw [byteNat_eq_toNat] at hpos
  rw [validBytes, BitVec.toNat_ofNat]
  exact Nat.mod_eq_of_lt (by omega)

/-- The message block that CBC_DEC_BLOCK and CBC_DEC_FINAL make of DIN and CHAIN (R116, R117). -/
def decryptedBlock (s : State) : Block :=
  desBlock s.sk false s.din ^^^ s.chain

/-- What CBC_DEC_FINAL does whether the padding is valid or not: the message ends, with its events (R117). -/
def decryptionEnded (s : State) (ok : Bool) : State :=
  emit (desEvents s.sk false s.din ++
      [.chain .dec s.din (decryptedBlock s), .unpad (byteOf (decryptedBlock s) 7) ok])
    { s with chain := s.din, mode := .idle }

section

variable {s : State} (hk : s.keyValid = true)
include hk

/-- R113 -/
theorem exec_cbcEncBlock (hm : s.mode = .enc) :
    exec .cbcEncBlock s = .next { s with
      dout := desBlock s.sk true (s.din ^^^ s.chain)
      chain := desBlock s.sk true (s.din ^^^ s.chain)
      trace := s.traceWith (desEvents s.sk true (s.din ^^^ s.chain) ++
        [.chain .enc (s.din ^^^ s.chain) (desBlock s.sk true (s.din ^^^ s.chain))])
      err := .ok, done := true, busy := false } :=
  congrArg Host.Outcome.next (cbcChecked_pass hk hm _)

/-- R114 -/
theorem exec_cbcEncFinal {n : BitVec 4} (hn : n.toNat ≤ 7) (hm : s.mode = .enc) :
    exec (.cbcEncFinal n) s = .next { s with
      dout := desBlock s.sk true (paddedBlock s.din n ^^^ s.chain)
      chain := desBlock s.sk true (paddedBlock s.din n ^^^ s.chain)
      mode := .idle
      trace := s.traceWith (.padding (BitVec.ofNat 8 (8 - n.toNat)) ::
        desEvents s.sk true (paddedBlock s.din n ^^^ s.chain) ++
        [.chain .enc (paddedBlock s.din n ^^^ s.chain) (desBlock s.sk true (paddedBlock s.din n ^^^ s.chain))])
      err := .ok, done := true, busy := false } :=
  congrArg Host.Outcome.next ((if_neg (not_lt.2 hn)).trans (cbcChecked_pass hk hm _))

/-- R115 -/
theorem exec_cbcDecInit (hm : s.mode = .idle) :
    exec .cbcDecInit s = .next { s with
      chain := s.din, mode := .dec, err := .ok, done := true, busy := false } :=
  congrArg Host.Outcome.next (cbcChecked_pass hk hm _)

/-- R116 -/
theorem exec_cbcDecBlock (hm : s.mode = .dec) :
    exec .cbcDecBlock s = .next { s with
      dout := decryptedBlock s
      chain := s.din
      trace := s.traceWith (desEvents s.sk false s.din ++ [.chain .dec s.din (decryptedBlock s)])
      err := .ok, done := true, busy := false } :=
  congrArg Host.Outcome.next (cbcChecked_pass hk hm _)

/-- R117: the padding decides on DOUT, RESULT.NBYTES and the code. -/
theorem exec_cbcDecFinal (hm : s.mode = .dec) :
    exec .cbcDecFinal s = .next
      (if paddingOk (decryptedBlock s) then
        complete .ok { decryptionEnded s (paddingOk (decryptedBlock s)) with
          dout := stripPadding (decryptedBlock s), nbytes := validBytes (decryptedBlock s) }
      else complete .pad { decryptionEnded s (paddingOk (decryptedBlock s)) with dout := 0, nbytes := 0 }) :=
  congrArg Host.Outcome.next (cbcChecked_pass hk hm _)

end

end Sys2Proof.Machine
end

section
/-! SUPPORT. The checks of a command up to the chain mode, in R139's order, and the chain mode it leaves (spec/43_cbc.md
rule R111), said once for all commands. -/

namespace Sys2Proof.Machine

/-- `CheckOutcome i s t`: command `i` takes `s` to `t` by failing its argument check, its key check or its chain mode
check, or it passes all three; then it reports none of their codes and MODE is what R111's table says. -/
inductive CheckOutcome (i : Instr) (s : State) : State → Prop where
  | badArg (hwf : i.wellFormed = false) : CheckOutcome i s (raiseError .badArg s)
  | noKey (hneeds : needsKey i = true) (hk : s.keyValid = false) : CheckOutcome i s (raiseError .noKey s)
  | wrongMode {m : ChainMode} (hneeds : neededMode i = some m) (hm : s.mode ≠ m) :
      CheckOutcome i s (raiseError .seq s)
  | passed {t : State} (code : ErrCode) (hneeds : ∀ m, neededMode i = some m → s.mode = m) (herr : t.err = code)
      (hcode : code ∉ [.badArg, .noKey, .seq]) (hmode : t.mode = modeAfter i s.mode) : CheckOutcome i s t

namespace CheckOutcome

variable {i : Instr} {m : ChainMode} {s x y : State}

/-- A check, by its two answers. -/
theorem ite {c : Prop} [Decidable c] (hx : c → CheckOutcome i s x) (hy : ¬ c → CheckOutcome i s y) :
    CheckOutcome i s (if c then x else y) := by
  split
  · exact hx ‹_›
  · exact hy ‹_›

/-- All checks passed, for a command that needs a chain mode. -/
theorem passed_in (hneeds : neededMode i = some m) (hm : s.mode = m) (code : ErrCode) (herr : x.err = code)
    (hcode : code ∉ [.badArg, .noKey, .seq]) (hmode : x.mode = modeAfter i m) : CheckOutcome i s x :=
  .passed code (fun _ h => hm.trans (Option.some.inj (hneeds.symm.trans h))) herr hcode (hm ▸ hmode)

/-- The checks of a CBC command (R111, R139). -/
theorem checked (hkey : needsKey i = true) (hneeds : neededMode i = some m) (h : s.mode = m → CheckOutcome i s x) :
    CheckOutcome i s (cbcChecked m s x) :=
  .ite (.noKey hkey) fun _ => .ite (.wrongMode hneeds) fun hm => h (not_not.1 hm)

end CheckOutcome

/-- Every command fails one of the three checks or passes them all. -/
theorem exec_checkOutcome (i : Instr) (s : State) : ∃ t, exec i s = .next t ∧ CheckOutcome i s t := by
  cases i with
  | nop | cbcAbort | dhClear | softReset => exact ⟨_, rfl, .passed .ok nofun rfl (by decide) rfl⟩
  | subkeyRead | roundF | blockEnc | blockDec =>
    exact ⟨_, rfl, .ite (.noKey rfl) fun _ => .passed .ok nofun rfl (by decide) rfl⟩
  | permute | sbox =>
    exact ⟨_, rfl, .ite (fun h => .badArg (decide_eq_false (not_le.2 h))) fun _ =>
      .passed .ok nofun rfl (by decide) rfl⟩
  | dhInit =>
    exact ⟨_, rfl, .ite (fun h => .badArg (decide_eq_false (not_le.2 h))) fun _ =>
      .ite (fun _ => .passed .dhParam nofun rfl (by decide) rfl) fun _ => .passed .ok nofun rfl (by decide) rfl⟩
  | dhShared =>
    exact ⟨_, rfl, .ite (fun _ => .passed .dhState nofun rfl (by decide) rfl) fun _ =>
      .passed .ok nofun rfl (by decide) rfl⟩
  | modexp =>
    exact ⟨_, rfl, .ite (fun _ => .passed .modZero nofun rfl (by decide) rfl) fun _ =>
      .passed .ok nofun rfl (by decide) rfl⟩
  | keyLoad =>
    exact ⟨_, rfl, .ite (.wrongMode rfl) fun hm => .passed_in rfl (not_not.1 hm) .ok rfl (by decide) (not_not.1 hm)⟩
  | keyFromDh =>
    exact ⟨_, rfl, .ite (.wrongMode rfl) fun hm =>
      .ite (fun _ => .passed_in rfl (not_not.1 hm) .dhState rfl (by decide) (not_not.1 hm)) fun _ =>
        .passed_in rfl (not_not.1 hm) .ok rfl (by decide) (not_not.1 hm)⟩
  | cbcEncInit | cbcDecInit => exact ⟨_, rfl, .checked rfl rfl fun hm => .passed_in rfl hm .ok rfl (by decide) rfl⟩
  | cbcEncBlock | cbcDecBlock => exact ⟨_, rfl, .checked rfl rfl fun hm => .passed_in rfl hm .ok rfl (by decide) hm⟩
  | cbcEncFinal =>
    exact ⟨_, rfl, .ite (fun h => .badArg (decide_eq_false (not_le.2 h))) fun _ =>
      .checked rfl rfl fun hm => .passed_in rfl hm .ok rfl (by decide) rfl⟩
  | cbcDecFinal =>
    exact ⟨_, rfl, .checked rfl rfl fun hm =>
      .ite (fun _ => .passed_in rfl hm .ok rfl (by decide) rfl) fun _ => .passed_in rfl hm .pad rfl (by decide) rfl⟩

/-- The inversion of `exec` by its checks. -/
theorem checkOutcome_of_exec {i : Instr} {s t : State} (h : exec i s = .next t) : CheckOutcome i s t := by
  obtain ⟨t', ht', hout⟩ := exec_checkOutcome i s
  cases h.symm.trans ht'
  exact hout

/-- R111: where the chain mode refuses a command, the table leaves it as it is. -/
theorem modeAfter_of_wrongMode {i : Instr} {m mode : ChainMode} (hneeds : neededMode i = some m) (hm : mode ≠ m) :
    modeAfter i mode = mode := by
  cases i with
  | cbcEncInit | cbcDecInit | cbcEncFinal | cbcDecFinal =>
    cases hneeds
    exact if_neg hm
  | cbcAbort | softReset => cases hneeds
  | _ => rfl

end Sys2Proof.Machine
end

section
/-! SUPPORT. The whole-payload functions on sequences of blocks, and the streams of the machine against their loops
(spec/43_cbc.md rules R108–R110, R119). -/

namespace Sys2Proof.Machine

/-- The number of whole blocks of a byte sequence. -/
theorem length_blocksOf (q : List Byte) : (blocksOf q).length = q.length / 8 := by
  simp [blocksOf]

/-- R106, R108: a padded message has one block more than the message has whole ones, and its ciphertext as many. -/
theorem length_cipherBlocks (sk : Vector Subkey 16) (m : List Byte) (iv : Block) :
    (cbcEncryptBlocks sk (blocksOf (padMessage m)) iv).length = m.length / 8 + 1 := by
  rw [length_cbcEncryptBlocks, length_blocksOf, length_padMessage, Nat.mul_div_cancel_left _ (by decide)]

/-- R109 on an IV and at least one cipher block: the length check passes. -/
theorem cbcDecrypt_flatMap (sk : Vector Subkey 16) (iv : Block) (cs : List Block) (hcs : 0 < cs.length) :
    cbcDecrypt sk ((iv :: cs).flatMap bytesOf) = unpadMessage ((cbcDecryptBlocks sk cs iv).flatMap bytesOf) := by
  have hlen := length_flatMap_bytesOf (iv :: cs)
  rw [List.length_cons] at hlen
  rw [cbcDecrypt, if_neg (by omega), List.flatMap_cons, List.drop_left' (length_bytesOf iv), blockOfBytes_bytesOf,
    blocksOf_flatMap]

/-- R108 on whole blocks and a partial one: the blocks, then the padded block chained to the last of them. -/
theorem cbcEncrypt_flatMap_take (sk : Vector Subkey 16) (bs : List Block) (d iv : Block) {n : BitVec 4}
    (hn : n.toNat ≤ 7) :
    cbcEncrypt sk (bs.flatMap bytesOf ++ (bytesOf d).take n.toNat) iv =
      (iv :: cbcEncryptBlocks sk bs iv ++
        [desBlock sk true (paddedBlock d n ^^^ (cbcEncryptBlocks sk bs iv).getLastD iv)]).flatMap bytesOf := by
  rw [cbcEncrypt, blocksOf_padMessage bs d n hn, cbcEncryptBlocks_append]
  rfl

/-- R109 on an IV, cipher blocks and a last one: the padding of the last decides. -/
theorem cbcDecrypt_flatMap_concat (sk : Vector Subkey 16) (iv : Block) (cs : List Block) (c : Block) {p : Block}
    (hp : p = desBlock sk false c ^^^ cs.getLastD iv) :
    cbcDecrypt sk ((iv :: cs ++ [c]).flatMap bytesOf) =
      if paddingOk p then
        some ((cbcDecryptBlocks sk cs iv).flatMap bytesOf ++
          (bytesOf (stripPadding p)).take (8 - (byteOf p 7).toNat))
      else none := by
  have hblocks : cbcDecryptBlocks sk (cs ++ [c]) iv = cbcDecryptBlocks sk cs iv ++ [p] := by
    rw [cbcDecryptBlocks_append, hp]
    rfl
  have hwhole : ((cbcDecryptBlocks sk cs iv).flatMap bytesOf).length % 8 = 0 := by
    rw [length_flatMap_bytesOf, Nat.mul_mod_right]
  rw [List.cons_append, cbcDecrypt_flatMap _ _ _ (by simp), hblocks, List.flatMap_append, List.flatMap_singleton,
    unpadMessage_append _ hwhole]

/-- The machine is inside a message in chain mode `m`, with a loaded key, the subkeys `sk`, and `prev` in CHAIN. -/
structure State.InMessage (s : State) (m : ChainMode) (sk : Vector Subkey 16) (prev : Block) : Prop where
  key_valid : s.keyValid = true
  mode_eq : s.mode = m
  sk_eq : s.sk = sk
  chain_eq : s.chain = prev

/-- A write of DIN does not leave the message. -/
theorem State.InMessage.with_din {s : State} {m : ChainMode} {sk : Vector Subkey 16} {prev : Block}
    (h : s.InMessage m sk prev) (b : Block) : { s with din := b }.InMessage m sk prev :=
  ⟨h.key_valid, h.mode_eq, h.sk_eq, h.chain_eq⟩

/-- A stream's first block, when its command ends in `t`. -/
theorem streamBlocks_cons {i : Instr} {s t : State} {b : Block} (bs : List Block)
    (h : exec i { s with din := b } = .next t) :
    streamBlocks i (b :: bs) s = (t.dout :: (streamBlocks i bs t).1, (streamBlocks i bs t).2) := by
  rw [streamBlocks, h]

/-- R112: CBC_ENC_INIT enters a message, with the IV it shows in DOUT. -/
theorem inMessage_of_encInit {s t : State} (hk : s.keyValid = true) (hm : s.mode = .idle)
    (h : exec .cbcEncInit s = .next t) : t.InMessage .enc s.sk t.dout := by
  cases (cbcEncInitDrawsIv s _ hk hm rfl).symm.trans h
  exact ⟨hk, rfl, rfl, rfl⟩

/-- R115: CBC_DEC_INIT enters a message, with the IV it finds in DIN. -/
theorem inMessage_of_decInit {s t : State} (hk : s.keyValid = true) (hm : s.mode = .idle)
    (h : exec .cbcDecInit s = .next t) : t.InMessage .dec s.sk s.din := by
  cases (exec_cbcDecInit hk hm).symm.trans h
  exact ⟨hk, rfl, rfl, rfl⟩

/-- R113: one block of an encryption. -/
theorem State.InMessage.exec_encBlock {s : State} {sk : Vector Subkey 16} {prev : Block} (h : s.InMessage .enc sk prev) :
    ∃ t, exec .cbcEncBlock s = .next t ∧ t.dout = desBlock sk true (s.din ^^^ prev) ∧
      t.InMessage .enc sk (desBlock sk true (s.din ^^^ prev)) := by
  obtain ⟨hk, hm, rfl, rfl⟩ := h
  exact ⟨_, exec_cbcEncBlock hk hm, rfl, hk, hm, rfl, rfl⟩

/-- R116: one block of a decryption. -/
theorem State.InMessage.exec_decBlock {s : State} {sk : Vector Subkey 16} {prev : Block} (h : s.InMessage .dec sk prev) :
    ∃ t, exec .cbcDecBlock s = .next t ∧ t.dout = desBlock sk false s.din ^^^ prev ∧ t.InMessage .dec sk s.din := by
  obtain ⟨hk, hm, rfl, rfl⟩ := h
  exact ⟨_, exec_cbcDecBlock hk hm, rfl, hk, hm, rfl, rfl⟩

/-- R110, R113: a stream of CBC_ENC_BLOCK is the loop of `cbc_encrypt`. -/
theorem State.InMessage.stream_encBlock {sk : Vector Subkey 16} (bs : List Block) {s : State} {prev : Block}
    (h : s.InMessage .enc sk prev) :
    (streamBlocks .cbcEncBlock bs s).1 = cbcEncryptBlocks sk bs prev ∧
      (streamBlocks .cbcEncBlock bs s).2.InMessage .enc sk ((cbcEncryptBlocks sk bs prev).getLastD prev) := by
  induction bs generalizing s prev with
  | nil => exact ⟨rfl, h⟩
  | cons b bs ih =>
    obtain ⟨t, hexec, hdout, ht⟩ := (h.with_din b).exec_encBlock
    obtain ⟨houts, hlast⟩ := ih ht
    rw [streamBlocks_cons bs hexec, hdout, houts, cbcEncryptBlocks, List.getLastD_cons]
    exact ⟨rfl, hlast⟩

/-- R110, R116: a stream of CBC_DEC_BLOCK is the loop of `cbc_decrypt`. -/
theorem State.InMessage.stream_decBlock {sk : Vector Subkey 16} (cs : List Block) {s : State} {prev : Block}
    (h : s.InMessage .dec sk prev) :
    (streamBlocks .cbcDecBlock cs s).1 = cbcDecryptBlocks sk cs prev ∧
      (streamBlocks .cbcDecBlock cs s).2.InMessage .dec sk (cs.getLastD prev) := by
  induction cs generalizing s prev with
  | nil => exact ⟨rfl, h⟩
  | cons c cs ih =>
    obtain ⟨t, hexec, hdout, ht⟩ := (h.with_din c).exec_decBlock
    obtain ⟨houts, hlast⟩ := ih ht
    rw [streamBlocks_cons cs hexec, hdout, houts, cbcDecryptBlocks, List.getLastD_cons]
    exact ⟨rfl, hlast⟩

/-- R114: the last block of an encryption. -/
theorem State.InMessage.exec_encFinal {s : State} {sk : Vector Subkey 16} {prev : Block} {n : BitVec 4}
    (h : s.InMessage .enc sk prev) (hn : n.toNat ≤ 7) :
    ∃ t, exec (.cbcEncFinal n) s = .next t ∧ t.err = .ok ∧ t.dout = desBlock sk true (paddedBlock s.din n ^^^ prev) := by
  obtain ⟨hk, hm, rfl, rfl⟩ := h
  exact ⟨_, exec_cbcEncFinal hk hn hm, rfl, rfl⟩

/-- R117: the last block of a decryption. -/
theorem State.InMessage.exec_decFinal {s : State} {sk : Vector Subkey 16} {prev p : Block}
    (h : s.InMessage .dec sk prev) (hp : p = desBlock sk false s.din ^^^ prev) :
    ∃ t, exec .cbcDecFinal s = .next t ∧
      ((paddingOk p = true ∧ t.err = .ok ∧ t.dout = stripPadding p ∧ t.nbytes.toNat = 8 - (byteOf p 7).toNat) ∨
        (paddingOk p = false ∧ t.err = .pad)) := by
  obtain ⟨hk, hm, rfl, rfl⟩ := h
  obtain rfl : p = decryptedBlock s := hp
  refine ⟨_, exec_cbcDecFinal hk hm, ?_⟩
  cases hpad : paddingOk (decryptedBlock s) with
  | true => exact .inl ⟨rfl, rfl, rfl, validBytes_toNat hpad⟩
  | false => exact .inr ⟨rfl, rfl⟩

end Sys2Proof.Machine
end

section
/-! The statements of spec/43_cbc.md's family. -/

namespace Sys2Proof.Machine

/-- Settles O22: of the outcomes of its checks, only the refusal by the chain mode is left to the command. -/
theorem wrongChainModeIsRefused : Obligations.WrongChainModeIsRefused := by
  intro i m s hwf hkey hneeds hm
  obtain ⟨t, hexec, hout⟩ := exec_checkOutcome i s
  rw [hexec]
  cases hout with
  | badArg hbad => cases hwf.symm.trans hbad
  | noKey hneedsKey hk => cases (hkey hneedsKey).symm.trans hk
  | wrongMode => rfl
  | passed _ hright => exact absurd (hright m hneeds) hm

/-- Settles O38: the checks pass, and the block cipher's result and events are R100's. -/
theorem cbcEncBlockChains : Obligations.CbcEncBlockChains := by
  intro s hk hm
  exact ⟨_, _, desBlock_isBlock s.sk true (s.din ^^^ s.chain), exec_cbcEncBlock hk hm⟩

/-- Settles O39: the checks pass, the padded block has R106's bytes, and its encryption is R100's. -/
theorem cbcEncFinalPadsAndEnds : Obligations.CbcEncFinalPadsAndEnds := by
  intro n s hn hk hm
  exact ⟨_, _, _, byteNat_paddedBlock s.din n, desBlock_isBlock _ _ _, exec_cbcEncFinal hk hn hm⟩

/-- Settles O41: the checks pass, and CHAIN takes DIN itself. -/
theorem cbcDecBlockChains : Obligations.CbcDecBlockChains := by
  intro s hk hm
  exact ⟨_, _, desBlock_isBlock s.sk false s.din, exec_cbcDecBlock hk hm⟩

/-- Settles O42: the machine's padding check is R107's (`paddingOk_iff`), and each answer has its own next state. -/
theorem cbcDecFinalChecksPadding : Obligations.CbcDecFinalChecksPadding := by
  intro s hk hm
  have hlast : BitVec.ofNat 8 (byteNat (decryptedBlock s) 7) = byteOf (decryptedBlock s) 7 := by
    rw [byteNat_eq_toNat, BitVec.ofNat_toNat, BitVec.setWidth_eq]
  refine ⟨_, decryptedBlock s, _, desBlock_isBlock s.sk false s.din, rfl, fun hvalid => ?_, fun hinvalid => ?_⟩
  · refine ⟨_, byteNat_stripPadding (decryptedBlock s), ?_⟩
    rw [exec_cbcDecFinal hk hm, (paddingOk_iff _).2 hvalid, hlast, byteNat_eq_toNat]
    rfl
  · rw [exec_cbcDecFinal hk hm, Bool.eq_false_of_not_eq_true (mt (paddingOk_iff _).1 hinvalid), hlast]
    rfl

/-- Settles O44: by the outcomes of the command's checks; reset leaves the chain mode IDLE. -/
theorem chainModeTransitions : Obligations.ChainModeTransitions := by
  refine ⟨fun i s t h => ?_, fun s rest h => ⟨_, step_reset h, rfl⟩⟩
  cases checkOutcome_of_exec h with
  | badArg => exact ⟨fun _ => rfl, fun hne => absurd rfl hne, nofun⟩
  | noKey => exact ⟨fun _ => rfl, fun _ hne => absurd rfl hne, nofun⟩
  | wrongMode hneeds hm =>
    exact ⟨fun _ => rfl, fun _ _ => ⟨(modeAfter_of_wrongMode hneeds hm).symm, fun _ => ⟨_, hneeds, hm⟩, fun _ => rfl⟩,
      fun _ => rfl⟩
  | passed code hneeds herr hcode hmode =>
    subst herr
    simp only [List.mem_cons, List.not_mem_nil, or_false, not_or] at hcode
    obtain ⟨hbadArg, hnoKey, hseq⟩ := hcode
    refine ⟨fun herr => absurd herr (not_or.2 ⟨hbadArg, hnoKey⟩), fun _ _ => ⟨hmode, fun h => absurd h hseq, ?_⟩,
      fun h => absurd h hseq⟩
    rintro ⟨m, hm, hne⟩
    exact absurd (hneeds m hm) hne

/-- Settles O45: CBC_ENC_INIT enters the message with the IV in CHAIN, the stream runs the loop, and CBC_ENC_FINAL encrypts
the padded block. -/
theorem streamEncryptsPayload : Obligations.StreamEncryptsPayload := by
  intro s t0 bs d n hk hm hn hinit
  obtain ⟨houts, hmsg⟩ := (inMessage_of_encInit hk hm hinit).stream_encBlock bs
  obtain ⟨t, hexec, herr, hdout⟩ := (hmsg.with_din d).exec_encFinal hn
  refine ⟨t, hexec, herr, ?_⟩
  rw [houts, hdout]
  exact (cbcEncrypt_flatMap_take s.sk bs d _ hn).symm

/-- Settles O46: CBC_DEC_INIT enters the message with the IV in CHAIN, the stream runs the loop, and the padding of the last
block decides both for CBC_DEC_FINAL and for `cbc_decrypt`. -/
theorem streamDecryptsPayload : Obligations.StreamDecryptsPayload := by
  intro s t0 iv cs c hk hm hinit
  obtain ⟨houts, hmsg⟩ := (inMessage_of_decInit (s := { s with din := iv }) hk hm hinit).stream_decBlock cs
  obtain ⟨t, hexec, hend⟩ := (hmsg.with_din c).exec_decFinal rfl
  refine ⟨t, hexec, ?_⟩
  rw [houts, cbcDecrypt_flatMap_concat s.sk iv cs c rfl]
  obtain ⟨hpad, herr, hdout, hnbytes⟩ | ⟨hpad, herr⟩ := hend
  · refine .inl ⟨herr, ?_⟩
    rw [if_pos hpad, hdout, hnbytes]
  · exact .inr ⟨herr, if_neg (Bool.eq_false_iff.1 hpad)⟩

/-- Settles O47: the decryption loop undoes the encryption loop, and unpadding undoes padding. -/
theorem payloadRoundTrip : Obligations.PayloadRoundTrip := by
  intro sk m iv
  have hwhole : (padMessage m).length % 8 = 0 := by
    rw [length_padMessage, Nat.mul_mod_right]
  have hsome : 0 < (cbcEncryptBlocks sk (blocksOf (padMessage m)) iv).length := by
    rw [length_cipherBlocks]
    exact Nat.succ_pos _
  rw [cbcEncrypt, cbcDecrypt_flatMap _ _ _ hsome, cbcDecryptBlocks_cbcEncryptBlocks, flatMap_blocksOf _ hwhole,
    unpadMessage_padMessage]

/-- Settles O48: 8 bytes for the IV and for each block of the padded message. -/
theorem ciphertextLength : Obligations.CiphertextLength := by
  intro sk m iv
  rw [cbcEncrypt, length_flatMap_bytesOf, List.length_cons, length_cipherBlocks]
  omega

/-- Settles O40: with a key and in chain mode IDLE the checks pass. -/
theorem cbcDecInitTakesIv : Obligations.CbcDecInitTakesIv := by
  intro s hk hm
  exact exec_cbcDecInit hk hm

/-- Settles O43: CBC_ABORT has no check. -/
theorem cbcAbortEndsMessage : Obligations.CbcAbortEndsMessage := by
  intro s
  rfl

end Sys2Proof.Machine
end

section
/-! SUPPORT. DH_SHARED past its check, and the DH state after a command (spec/44_dh_modexp.md rules R121, R123–R126,
R129). -/

namespace Sys2Proof.Machine

/-- R125: DH_SHARED in a keyed state. -/
theorem exec_dhShared {s : State} (hk : s.dhKeyed = true) :
    exec .dhShared s = .next { s with
      ssec := BitVec.ofNat 2048 (modexp s.peer.toNat s.priv.toNat s.psess.toNat)
      dhkey := blockOfBytes (kdf (modexp s.peer.toNat s.priv.toNat s.psess.toNat))
      dhkeyValid := true, err := .ok, done := true, busy := false } := by
  rw [exec, execDhShared, if_neg (by simp [hk])]
  rfl

/-- R126: the derived key's bytes are the first 8 of the digest. -/
theorem byteNat_kdf (S k : Nat) (hk : k < 8) :
    byteNat (blockOfBytes (kdf S)) k = ((Config.hDh (Config.encS S)).bytes.getD k 0).toNat := by
  rw [byteNat_eq_toNat, blockOfBytes, byteOf_blockOfFn _ _ hk, kdf, List.getD_eq_getElem?_getD,
    List.getElem?_take_of_lt hk, List.getD_eq_getElem?_getD]

/-- R129: (g^b)^a = g^(ab), the public value being reduced. -/
theorem pow_of_public {g p a b pub : Nat} (hpub : pub = g ^ b % p) : pub ^ a % p = g ^ (a * b) % p := by
  rw [hpub, ← Nat.pow_mod, ← pow_mul, Nat.mul_comm]

/-- R124: DH_INIT that reports OK has taken valid parameters. -/
theorem dhInitTakes_of_ok {dflt : BitVec 4} {s t : State} (h : exec (.dhInit dflt) s = .next t) (hok : t.err = .ok) :
    ∃ p g, DhInitTakes dflt s p g := by
  by_cases harg : dflt.toNat > 1
  · cases h.symm.trans (congrArg Host.Outcome.next (if_pos harg))
    cases hok
  · refine ⟨_, _, not_lt.1 harg, rfl, rfl, Bool.eq_true_of_not_eq_false fun hbad => ?_⟩
    cases h.symm.trans (congrArg Host.Outcome.next ((if_neg harg).trans (if_pos hbad)))
    cases hok

/-- R123: a refused command, and any command but DH_INIT, DH_SHARED, DH_CLEAR and SOFT_RESET, leaves the DH state. -/
theorem Effect.keeps_dhState {i : Instr} {s t : State} (he : Effect s i t)
    (h : t.err ≠ .ok ∨ ((∀ d, i ≠ .dhInit d) ∧ i ≠ .dhShared ∧ i ≠ .dhClear ∧ i ≠ .softReset)) :
    t.dhKeyed = s.dhKeyed ∧ t.dhkeyValid = s.dhkeyValid := by
  cases he with
  | dhInit | dhShared | dhClear | softReset => simp at h
  | _ => exact ⟨rfl, rfl⟩

end Sys2Proof.Machine
end

section
/-! The statements of spec/44_dh_modexp.md's family. -/

namespace Sys2Proof.Machine

/-- Settles O50: the engine's value is the power where the modulus is not 0, and the key is the digest's first 8 bytes. -/
theorem dhSharedDerivesKey : Obligations.DhSharedDerivesKey := by
  intro s hk
  exact ⟨_, _, modexp_eq _ _ _ s.priv.isLt, byteNat_kdf _, exec_dhShared hk⟩

/-- Settles O53: DH_INIT, DH_SHARED, DH_CLEAR and SOFT_RESET by their own rules, KEY_FROM_DH by its two checks, and the
frame by the effects of a command. -/
theorem dhStateTransitions : Obligations.DhStateTransitions := by
  intro i s t h
  refine ⟨?_, ?_, ?_, ?_, (effect_of_exec h).keeps_dhState⟩
  · rintro dflt rfl hok
    obtain ⟨p, g, htakes⟩ := dhInitTakes_of_ok h hok
    cases h.symm.trans (exec_dhInit htakes)
    exact ⟨rfl, rfl⟩
  · rintro rfl
    cases hk : s.dhKeyed with
    | true =>
      cases h.symm.trans (exec_dhShared hk)
      exact ⟨rfl, hk, rfl⟩
    | false =>
      cases h.symm.trans (dhAndModexpChecks.1 s hk)
      rfl
  · rintro (rfl | rfl)
    all_goals
      cases h
      exact ⟨rfl, rfl⟩
  · rintro rfl hv
    by_cases hm : s.mode = .idle
    · cases h.symm.trans (dhAndModexpChecks.2.1 s hm hv)
      exact .inr rfl
    · cases h.symm.trans (wrongChainModeIsRefused .keyFromDh .idle s rfl nofun rfl hm)
      exact .inl rfl

/-- Settles O54: each party's secret is the other's public value to its own exponent, and `pow_of_public` brings both to
g^(ab) mod p. -/
theorem dhAgreement : Obligations.DhAgreement := by
  intro s1 s2 hp hg hp4 hg2 hgp
  obtain ⟨⟨a, pubA, -, -, hpubA, hu1⟩, -⟩ :=
    dhInitMakesKeyPair 0 s1 s1.p s1.g (.inl ⟨rfl, rfl, rfl, hp4, hg2, hgp⟩)
  obtain ⟨⟨b, pubB, -, -, hpubB, hu2⟩, -⟩ :=
    dhInitMakesKeyPair 0 s2 s1.p s1.g (.inl ⟨rfl, hp, hg, hp4, hg2, hgp⟩)
  have hpos : 0 < s1.p.toNat := by omega
  have hsame : modexp pubB.toNat a.toNat s1.p.toNat = modexp pubA.toNat b.toNat s1.p.toNat := by
    rw [modexp_eq _ _ _ a.isLt hpos, modexp_eq _ _ _ b.isLt hpos, pow_of_public hpubB, pow_of_public hpubA,
      Nat.mul_comm]
  refine ⟨_, _, _, _, hu1, hu2, exec_dhShared rfl, exec_dhShared rfl, ?_, ?_, ?_⟩
  · exact (modexp_toNat _ _ s1.p a.isLt hpos).trans (pow_of_public hpubB)
  · exact congrArg (BitVec.ofNat 2048) hsame
  · exact congrArg (blockOfBytes <| kdf ·) hsame

/-- Settles O51: DH_CLEAR has no check. -/
theorem dhClearEndsSession : Obligations.DhClearEndsSession := by
  intro s
  rfl

end Sys2Proof.Machine
end

section
/-! The obligation about the system commands (spec/45_system.md). -/

namespace Sys2Proof.Machine

/-- Settles O27: NOP has no check and writes nothing before its completion with OK (R137). -/
theorem nopOnlyCompletes : Obligations.NopOnlyCompletes := by
  intro s
  calc exec .nop s
    _ = .next (complete .ok s) := rfl
    _ = .next { s with err := .ok, done := true, busy := false } := rfl

end Sys2Proof.Machine
end

section
/-! SUPPORT. How a command can complete (spec/60_exceptions.md rules R137, R138, R140), said once for all commands. -/

namespace Sys2Proof.Machine

/-- `Completion i s t`: command `i` takes `s` to `t` with OK; or a check refuses it, with a code that R140 lists if its
argument is legal; or it is a CBC_DEC_FINAL that finds the padding invalid, the one error past the checks (R138). -/
inductive Completion (i : Instr) (s : State) : State → Prop where
  | ok {t : State} (herr : t.err = .ok) : Completion i s t
  | refused (code : ErrCode) (hpad : code ≠ .pad) (hcode : i.wellFormed = true → code ∈ reportable i) :
      Completion i s (raiseError code s)
  | padding {t : State} (hi : i = .cbcDecFinal) (hk : s.keyValid = true) (hm : s.mode = .dec) (herr : t.err = .pad) :
      Completion i s t

namespace Completion

variable {i : Instr} {m : ChainMode} {s x y : State} {c : Prop} [Decidable c]

/-- A last check, by its two answers. -/
theorem ite (hx : Completion i s x) (hy : Completion i s y) : Completion i s (if c then x else y) := by
  split
  · exact hx
  · exact hy

/-- A check that refuses the command. -/
theorem guarded {code : ErrCode} (hpad : code ≠ .pad) (hcode : code ∈ reportable i) (h : Completion i s x) :
    Completion i s (if c then raiseError code s else x) :=
  .ite (.refused code hpad fun _ => hcode) h

/-- The argument check, which R140 leaves out: it refuses no well-formed command (R65). -/
theorem argument (hwf : c → i.wellFormed = false) (h : Completion i s x) :
    Completion i s (if c then raiseError .badArg s else x) := by
  split
  · exact .refused .badArg nofun fun hlegal => absurd (hlegal.symm.trans (hwf ‹_›)) nofun
  · exact h

/-- The checks of a CBC command (R111, R139). -/
theorem checked (hkey : .noKey ∈ reportable i) (hseq : .seq ∈ reportable i)
    (h : s.keyValid = true → s.mode = m → Completion i s x) : Completion i s (cbcChecked m s x) := by
  obtain ⟨-, he⟩ | ⟨-, -, he⟩ | ⟨hk, hm, he⟩ := cbcChecked_cases m s x <;> rw [he]
  · exact .refused .noKey nofun fun _ => hkey
  · exact .refused .seq nofun fun _ => hseq
  · exact h hk hm

end Completion

/-- Every command completes in one of these ways. -/
theorem exec_completion (i : Instr) (s : State) : ∃ t, exec i s = .next t ∧ Completion i s t := by
  cases i with
  | nop | cbcAbort | dhClear | softReset => exact ⟨_, rfl, .ok rfl⟩
  | keyLoad | subkeyRead | roundF | blockEnc | blockDec | dhShared | modexp =>
    exact ⟨_, rfl, .guarded nofun (.head _) (.ok rfl)⟩
  | keyFromDh => exact ⟨_, rfl, .guarded nofun (.head _) (.guarded nofun (.tail _ (.head _)) (.ok rfl))⟩
  | permute | sbox => exact ⟨_, rfl, .argument (fun h => decide_eq_false (not_le.2 h)) (.ok rfl)⟩
  | dhInit =>
    exact ⟨_, rfl, .argument (fun h => decide_eq_false (not_le.2 h)) (.guarded nofun (.head _) (.ok rfl))⟩
  | cbcEncInit | cbcEncBlock | cbcDecInit | cbcDecBlock =>
    exact ⟨_, rfl, .checked (.head _) (.tail _ (.head _)) fun _ _ => .ok rfl⟩
  | cbcEncFinal =>
    exact ⟨_, rfl, .argument (fun h => decide_eq_false (not_le.2 h))
      (.checked (.head _) (.tail _ (.head _)) fun _ _ => .ok rfl)⟩
  | cbcDecFinal =>
    exact ⟨_, rfl, .checked (.head _) (.tail _ (.head _)) fun hk hm => .ite (.ok rfl) (.padding rfl hk hm rfl)⟩

/-- The inversion of `exec` by its completion. -/
theorem completion_of_exec {i : Instr} {s t : State} (h : exec i s = .next t) : Completion i s t := by
  obtain ⟨t', ht', hcomp⟩ := exec_completion i s
  cases h.symm.trans ht'
  exact hcomp

end Sys2Proof.Machine
end

section
/-! SUPPORT. What depends on tracing (spec/60_exceptions.md rule R151): each move on a state and on the same state with
PTRACE = 0 and no trace leaves states that are one but for these. -/

namespace Sys2Proof.Machine

/-- R43, R151: no register of the window shows the trace or its latch. -/
theorem regValue_untraced (r : WinReg) (s : State) : regValue r s.untraced = regValue r s := by
  cases r with
  | big r k => cases r <;> rfl
  | _ => rfl

/-- R151: a read. -/
theorem hostRead_untraced (off : WordOff) (drawn : Word) (s : State) :
    (hostRead off drawn s).untraced = (hostRead off drawn s.untraced).untraced := by
  rw [hostRead, hostRead, regValue_untraced]
  exact ite_view State.untraced rfl rfl

/-- R151: an idle write; one of CMD latches PTRACE anew from CTRL. -/
theorem writeIdle_untraced (r : WinReg) (v : Word) (s : State) :
    (writeIdle r v s).untraced = (writeIdle r v s.untraced).untraced := by
  cases r with
  | big r k => cases r <;> rfl
  | _ => rfl

/-- R151: a write while BUSY = 1. -/
theorem writeBusy_untraced (r : WinReg) (v : Word) (s : State) :
    (writeBusy r v s).untraced = (writeBusy r v s.untraced).untraced := by
  cases r <;> rfl

/-- R151: a write at any time. -/
theorem hostWrite_untraced (off : WordOff) (v : Word) (s : State) :
    (hostWrite off v s).untraced = (hostWrite off v s.untraced).untraced :=
  ite_view State.untraced (writeBusy_untraced _ _ _) (writeIdle_untraced _ _ _)

/-- R151: the completion of a word that is no command. -/
theorem rejectWord_untraced (e : DecodeError) (s : State) :
    (rejectWord e s).untraced = (rejectWord e s.untraced).untraced := by
  cases e <;> rfl

/-- R151: no command's check reads the trace or its latch, and no value it writes outside them is made of them. -/
theorem exec_untraced (i : Instr) (s : State) :
    ∃ u v, exec i s = .next u ∧ exec i s.untraced = .next v ∧ u.untraced = v.untraced := by
  cases i with
  | nop | cbcAbort | dhClear | softReset => exact ⟨_, _, rfl, rfl, rfl⟩
  | keyLoad | subkeyRead | permute | sbox | roundF | blockEnc | blockDec | dhShared | modexp =>
    exact ⟨_, _, rfl, rfl, ite_view _ rfl rfl⟩
  | keyFromDh | cbcEncInit | cbcEncBlock | cbcDecInit | cbcDecBlock | dhInit =>
    exact ⟨_, _, rfl, rfl, ite_view _ rfl (ite_view _ rfl rfl)⟩
  | cbcEncFinal | cbcDecFinal => exact ⟨_, _, rfl, rfl, ite_view _ rfl (ite_view _ rfl (ite_view _ rfl rfl))⟩

/-- R151: the core's step. -/
theorem coreStep_untraced (drawn : Draw) (s : State) :
    ∃ u v, coreStep drawn s = .next u ∧ coreStep drawn s.untraced = .next v ∧ u.untraced = v.untraced := by
  obtain ⟨hb, h⟩ | ⟨hb, e, he, h⟩ | ⟨hb, i, hi, h⟩ := coreStep_cases drawn s
  · exact ⟨_, _, h, coreStep_idle hb, rfl⟩
  · exact ⟨_, _, h, coreStep_of_reject drawn hb he, rejectWord_untraced e s⟩
  · obtain ⟨u, v, hu, hv, huv⟩ := exec_untraced i { s with draw := drawn }
    exact ⟨u, v, h.trans hu, (coreStep_of_decode (s := s.untraced) drawn hb hi).trans hv, huv⟩

/-- R151: a step is the same move for both states. -/
theorem step_untraced (s : State) :
    ∃ u v, step s = .next u ∧ step s.untraced = .next v ∧ u.untraced = v.untraced := by
  obtain ⟨drawn, rest, hn, h⟩ | ⟨off, drawn, rest, hn, h⟩ | ⟨off, w, rest, hn, h⟩ | ⟨rest, hn, h⟩ := step_cases s
  · obtain ⟨u, v, hu, hv, huv⟩ := coreStep_untraced drawn { s with schedule := rest }
    have hn' : s.untraced.coreNext drawn rest := hn
    exact ⟨u, v, h.trans hu, (step_of_coreNext hn').trans hv, huv⟩
  · exact ⟨_, _, h, step_read (s := s.untraced) hn, hostRead_untraced off drawn { s with schedule := rest }⟩
  · exact ⟨_, _, h, step_write (s := s.untraced) hn, hostWrite_untraced off w { s with schedule := rest }⟩
  · exact ⟨_, _, h, step_reset (s := s.untraced) hn, rfl⟩

end Sys2Proof.Machine
end

section
/-! The statements of spec/60_exceptions.md's family. -/

namespace Sys2Proof.Machine

/-- Settles O21: the key check is the first of each command that needs a key; the argument check of CBC_ENC_FINAL, which
stands before it, passes a well-formed command. -/
theorem missingKeyIsReported : Obligations.MissingKeyIsReported := by
  intro i s hwf hneeds hk
  cases i with
  | subkeyRead | roundF | blockEnc | blockDec | cbcEncInit | cbcEncBlock | cbcDecInit | cbcDecBlock | cbcDecFinal =>
    exact congrArg Host.Outcome.next (if_pos hk)
  | cbcEncFinal n =>
    have hlegal : n.toNat ≤ 7 := of_decide_eq_true hwf
    exact congrArg Host.Outcome.next ((if_neg (not_lt.2 hlegal)).trans (if_pos hk))
  | nop | keyLoad | keyFromDh | permute | sbox | cbcAbort | dhInit | dhShared | dhClear | modexp | softReset =>
    cases hneeds

/-- Settles O25: a refusal is the completion alone, and past its checks only a CBC_DEC_FINAL that finds the padding invalid
reports an error, with the next state of `cbcDecFinalChecksPadding`. -/
theorem errorsArePrecise : Obligations.ErrorsArePrecise := by
  intro i s t h herr
  cases completion_of_exec h with
  | ok hok => exact absurd hok herr
  | refused code hpad => exact ⟨fun _ => rfl, fun hcode => absurd hcode hpad⟩
  | padding hi hk hm hpad =>
    subst hi
    refine ⟨fun hne => absurd hpad hne, fun _ => ⟨rfl, ?_⟩⟩
    obtain ⟨d, p, evs, hblock, rfl, hvalid, hinvalid⟩ := cbcDecFinalChecksPadding s hk hm
    by_cases hp : PaddingValid (d ^^^ s.chain)
    · obtain ⟨o, -, hok⟩ := hvalid hp
      cases h.symm.trans hok
      cases hpad
    · cases h.symm.trans (hinvalid hp)
      exact ⟨d, evs, hblock, rfl⟩

/-- Settles O26: a well-formed command is refused with a listed code only, and PAD is listed for CBC_DEC_FINAL. -/
theorem reportedCodes : Obligations.ReportedCodes := by
  intro i s t hwf h
  cases completion_of_exec h with
  | ok hok => exact .inl hok
  | refused code _ hcode => exact .inr (hcode hwf)
  | padding hi _ _ hpad =>
    subst hi
    rw [hpad]
    exact .inr (by decide)

/-- Settles O59: states that differ in tracing alone are one state without it, whose step both their steps follow. -/
theorem tracingHasNoInfluence : Obligations.TracingHasNoInfluence := by
  intro s t hst
  obtain ⟨s', u, hs, hu, hsu⟩ := step_untraced s
  obtain ⟨t', v, ht, hv, htv⟩ := step_untraced t
  rw [← hst] at hv
  cases hu.symm.trans hv
  exact ⟨s', t', hs, ht, hsu.trans htv.symm⟩

end Sys2Proof.Machine
end

section
/-! SUPPORT. The moves once nothing is scheduled, and the registers at reset (spec/70_reset_and_hazards.md rules R155, R164,
R166). -/

namespace Sys2Proof.Machine

/-- R164: with nothing scheduled the step is the core's. -/
theorem step_unscheduled {s : State} (h : s.schedule = []) : step s = coreStep s.lastDraw s := by
  rw [step, nextMove, h]

/-- R69, R152: the core's step leaves no command pending, whether or not it found one, and leaves the moves to come. -/
theorem coreStep_leaves_idle (d : Draw) (s : State) :
    ∃ t, coreStep d s = .next t ∧ t.busy = false ∧ t.schedule = s.schedule := by
  cases hb : s.busy with
  | false => exact ⟨s, coreStep_idle hb, hb, rfl⟩
  | true =>
    obtain ⟨t, hstep, hbusy, -, hsched⟩ := coreStep_completes d hb
    exact ⟨t, hstep, hbusy, hsched⟩

/-- R164, R166: a run through all the moves to come and one step more reaches an end. -/
theorem run_ends (turns : List Turn) : ∀ s : State, s.schedule = turns →
    ∃ t, core.run (turns.length + 1) s = .next t ∧ t.ended := by
  induction turns with
  | nil =>
    intro s hs
    obtain ⟨t, hstep, hbusy, hsched⟩ := coreStep_leaves_idle s.lastDraw s
    exact ⟨t, run_succ ((step_unscheduled hs).trans hstep) 0, hsched.trans hs, hbusy⟩
  | cons turn rest ih =>
    intro s hs
    obtain ⟨u, hu⟩ := step_next s
    have hrest : u.schedule = rest := by rw [step_schedule hu, hs, List.tail_cons]
    obtain ⟨t, hrun, hend⟩ := ih u hrest
    exact ⟨t, (run_succ hu _).trans hrun, hend⟩

/-- R43: ID stands at offset 0 and nowhere else. -/
theorem regAt_eq_id : ∀ off : WordOff, regAt off = .id ↔ off.val = 0 := by
  decide +kernel

/-- R155: at reset every register but ID reads 0. -/
theorem regValue_reset (r : WinReg) : regValue r State.reset = if r = .id then Config.idValue else 0 := by
  cases r with
  | big r k =>
    have hzero : bigValue r State.reset = 0 := by cases r <;> rfl
    simp [regValue, hzero, bigWord]
  | _ => rfl

/-- R140: a well-formed command for which no error is listed reports OK. -/
theorem exec_ok_of_unreportable {i : Instr} (s : State) (hwf : i.wellFormed = true) (h : reportable i = []) :
    ∃ t, exec i s = .next t ∧ t.err = .ok := by
  obtain ⟨t, ht⟩ := exec_next i s
  have hcode := reportedCodes i s t hwf ht
  rw [h] at hcode
  exact ⟨t, ht, hcode.resolve_right List.not_mem_nil⟩

/-- R122, R124: DH_INIT reports OK with valid parameters in P and G, or with the defaults. -/
theorem exec_dhInit_ok {dflt : BitVec 4} {s : State} (hwf : (Instr.dhInit dflt).wellFormed = true)
    (hv : dflt = 0 → 4 ≤ s.p.toNat ∧ 2 ≤ s.g.toNat ∧ s.g.toNat < s.p.toNat) :
    ∃ t, exec (.dhInit dflt) s = .next t ∧ t.err = .ok := by
  have hform : dflt = 0 ∨ dflt = 1 := by
    have hlegal : dflt.toNat ≤ 1 := of_decide_eq_true hwf
    bv_omega
  obtain rfl | rfl := hform
  · exact ⟨_, exec_dhInit (.of_registers ((dhValid_iff _ _).2 (hv rfl))), rfl⟩
  · exact ⟨_, exec_dhInit (.of_defaults s), rfl⟩

/-- R155: what can run without a key and a DH session. Of the state at reset only the chain mode matters, to KEY_LOAD. -/
theorem exec_ok_of_idle {i : Instr} {s : State} (hwf : i.wellFormed = true) (hneeds : needsKey i = false)
    (hshared : i ≠ .dhShared) (hfrom : i ≠ .keyFromDh) (hm : s.mode = .idle) (hmm : i = .modexp → s.mm ≠ 0)
    (hdh : ∀ d, i = .dhInit d → d = 0 → 4 ≤ s.p.toNat ∧ 2 ≤ s.g.toNat ∧ s.g.toNat < s.p.toNat) :
    ∃ t, exec i s = .next t ∧ t.err = .ok := by
  cases i with
  | nop | permute | sbox | cbcAbort | dhClear | softReset => exact exec_ok_of_unreportable s hwf rfl
  | keyLoad klen => exact ⟨_, exec_keyLoad klen hm, rfl⟩
  | modexp => exact ⟨_, exec_modexp (hmm rfl), rfl⟩
  | dhInit dflt => exact exec_dhInit_ok hwf (hdh dflt rfl)
  | dhShared => exact absurd rfl hshared
  | keyFromDh => exact absurd rfl hfrom
  | subkeyRead | roundF | blockEnc | blockDec | cbcEncInit | cbcEncBlock | cbcEncFinal | cbcDecInit | cbcDecBlock
  | cbcDecFinal => cases hneeds

end Sys2Proof.Machine
end

section
/-! The statements of spec/70_reset_and_hazards.md's family. -/

namespace Sys2Proof.Machine

/-- Settles O9: by induction on the moves to come, each step using up one; once none is left, the core's step completes
what is pending, and after that it is idle. -/
theorem everyRunEnds : Obligations.EveryRunEnds := by
  refine ⟨fun s => run_ends s.schedule s rfl, ?_⟩
  rintro s ⟨hsched, hbusy⟩
  exact (step_unscheduled hsched).trans (coreStep_idle hbusy)

/-- Settles O20: the register map at reset; the key check and the DH checks, which the reset state fails; and the commands
that need neither, which need no more of the reset state than chain mode IDLE. -/
theorem stateRightAfterReset : Obligations.StateRightAfterReset := by
  refine ⟨fun off => ?_, fun i hwf hneeds => ?_, ?_, fun i s hwf hneeds hshared hfrom hreset hmm hdh => ?_⟩
  · rw [regValue_reset]
    simp only [regAt_eq_id, Config.idValue]
  · exact ⟨_, missingKeyIsReported i State.reset hwf hneeds rfl, rfl⟩
  · obtain ⟨hsharedCheck, hfromCheck, -⟩ := dhAndModexpChecks
    rintro i (rfl | rfl)
    · exact ⟨_, hsharedCheck State.reset rfl, rfl⟩
    · exact ⟨_, hfromCheck State.reset rfl rfl, rfl⟩
  · have hm : s.mode = .idle := (congrArg State.mode hreset :)
    exact exec_ok_of_idle hwf hneeds hshared hfrom hm hmm hdh

end Sys2Proof.Machine
end
